-- ==== Sys2Proof/Word.lean ====
section
/-! DEFINITION. The word types of the block: bytes, 16-bit words, register and key indices (rules R6, R14, R20, R21). -/

namespace Sys2Proof

/-- An 8-bit value: a general register, a timer, a memory byte (R6). -/
abbrev Byte := BitVec 8

/-- A 16-bit value: an instruction word, I, PC, a stack entry (R6, R14). -/
abbrev Word := BitVec 16

/-- The 12-bit address literal `nnn` (R83). -/
abbrev Addr := BitVec 12

/-- A general register index, 0x0 to 0xF; every 4-bit value names a register (R20, R21). -/
abbrev Reg := Fin 16

/-- A key index, 0x0 to 0xF (R42). -/
abbrev Key := Fin 16

/-- The flag register VF = V[15] (R22). -/
abbrev vF : Reg := 15

end Sys2Proof
end

