-- ==== Sys2Proof/Decode.lean ====
section
/-! DEFINITION. The encoding (rules R61, R83-R91): the fields of a word, the decoder (total: every word decodes to one
instruction or to none, R90), the encoder, and the mask/match columns of the opcode map (R86). -/

namespace Sys2Proof

/-! ### Fields of a word (R83) -/

/-- `f = op[15:12]`, the family nibble. -/
def fieldF (op : Word) : Nat := op.toNat / 4096

/-- `x = op[11:8]`, the first register index. -/
def fieldX (op : Word) : Reg := ⟨op.toNat / 256 % 16, Nat.mod_lt _ (by decide)⟩

/-- `y = op[7:4]`, the second register index. -/
def fieldY (op : Word) : Reg := ⟨op.toNat / 16 % 16, Nat.mod_lt _ (by decide)⟩

/-- `n = op[3:0]`, a count or sub-opcode nibble. -/
def fieldN (op : Word) : Fin 16 := ⟨op.toNat % 16, Nat.mod_lt _ (by decide)⟩

/-- `kk = op[7:0]`, a byte literal or sub-opcode byte. -/
def fieldKK (op : Word) : Byte := BitVec.ofNat 8 (op.toNat % 256)

/-- `nnn = op[11:0]`, an address literal. -/
def fieldNNN (op : Word) : Addr := BitVec.ofNat 12 (op.toNat % 4096)

/-! ### Decode (R85-R90) -/

/-- Family 0: 00E0 and 00EE take precedence over SYS (R85). -/
def decodeFamily0 (op : Word) : Instr :=
  if op = 0x00E0 then .cls
  else if op = 0x00EE then .ret
  else .sys (fieldNNN op)

/-- Family 8: the low nibble selects the operation; the other nibbles are unrecognised (R86, R88). -/
def decodeFamily8 (op : Word) : Option Instr :=
  match (fieldN op).val with
  | 0x0 => some (.ldReg (fieldX op) (fieldY op))
  | 0x1 => some (.orReg (fieldX op) (fieldY op))
  | 0x2 => some (.andReg (fieldX op) (fieldY op))
  | 0x3 => some (.xorReg (fieldX op) (fieldY op))
  | 0x4 => some (.addReg (fieldX op) (fieldY op))
  | 0x5 => some (.sub (fieldX op) (fieldY op))
  | 0x6 => some (.shr (fieldX op) (fieldY op))
  | 0x7 => some (.subn (fieldX op) (fieldY op))
  | 0xE => some (.shl (fieldX op) (fieldY op))
  | _ => none

/-- Family E: the low byte selects the operation (R86, R88). -/
def decodeFamilyE (op : Word) : Option Instr :=
  match op.toNat % 256 with
  | 0x9E => some (.skp (fieldX op))
  | 0xA1 => some (.sknp (fieldX op))
  | _ => none

/-- Family F: the low byte selects the operation (R86, R88). -/
def decodeFamilyF (op : Word) : Option Instr :=
  match op.toNat % 256 with
  | 0x07 => some (.ldVxDt (fieldX op))
  | 0x0A => some (.ldK (fieldX op))
  | 0x15 => some (.ldDt (fieldX op))
  | 0x18 => some (.ldSt (fieldX op))
  | 0x1E => some (.addI (fieldX op))
  | 0x29 => some (.ldF (fieldX op))
  | 0x33 => some (.ldB (fieldX op))
  | 0x55 => some (.ldStore (fieldX op))
  | 0x65 => some (.ldLoad (fieldX op))
  | _ => none

/-- Decode (R85, R86): dispatch on the family nibble, and where families overlap on the low byte or low nibble.
`none` is the DecodeError of R87. -/
def decode (op : Word) : Option Instr :=
  match fieldF op with
  | 0x0 => some (decodeFamily0 op)
  | 0x1 => some (.jp (fieldNNN op))
  | 0x2 => some (.call (fieldNNN op))
  | 0x3 => some (.seImm (fieldX op) (fieldKK op))
  | 0x4 => some (.sneImm (fieldX op) (fieldKK op))
  | 0x5 => if (fieldN op).val = 0 then some (.seReg (fieldX op) (fieldY op)) else none
  | 0x6 => some (.ldImm (fieldX op) (fieldKK op))
  | 0x7 => some (.addImm (fieldX op) (fieldKK op))
  | 0x8 => decodeFamily8 op
  | 0x9 => if (fieldN op).val = 0 then some (.sneReg (fieldX op) (fieldY op)) else none
  | 0xA => some (.ldI (fieldNNN op))
  | 0xB => some (.jpV0 (fieldNNN op))
  | 0xC => some (.rnd (fieldX op) (fieldKK op))
  | 0xD => some (.drw (fieldX op) (fieldY op) (fieldN op))
  | 0xE => decodeFamilyE op
  | 0xF => decodeFamilyF op
  | _ => none

/-! ### Encode (R83, R86) -/

/-- Format NNN: `f` and `nnn`. -/
def wordNNN (f : Nat) (nnn : Addr) : Word := BitVec.ofNat 16 (f * 4096 + nnn.toNat)

/-- Format XKK, and format X with its fixed low byte: `f`, `x` and `kk`. -/
def wordXKK (f : Nat) (x : Reg) (kk : Nat) : Word := BitVec.ofNat 16 (f * 4096 + x.val * 256 + kk)

/-- Format XYN, and format XY with its fixed low nibble: `f`, `x`, `y` and `n`. -/
def wordXYN (f : Nat) (x y : Reg) (n : Nat) : Word := BitVec.ofNat 16 (f * 4096 + x.val * 256 + y.val * 16 + n)

/-- The word of an instruction, written from the encoding columns of R86. -/
def encode : Instr → Word
  | .sys nnn => wordNNN 0x0 nnn
  | .cls => 0x00E0
  | .ret => 0x00EE
  | .jp nnn => wordNNN 0x1 nnn
  | .call nnn => wordNNN 0x2 nnn
  | .seImm x kk => wordXKK 0x3 x kk.toNat
  | .sneImm x kk => wordXKK 0x4 x kk.toNat
  | .seReg x y => wordXYN 0x5 x y 0x0
  | .ldImm x kk => wordXKK 0x6 x kk.toNat
  | .addImm x kk => wordXKK 0x7 x kk.toNat
  | .ldReg x y => wordXYN 0x8 x y 0x0
  | .orReg x y => wordXYN 0x8 x y 0x1
  | .andReg x y => wordXYN 0x8 x y 0x2
  | .xorReg x y => wordXYN 0x8 x y 0x3
  | .addReg x y => wordXYN 0x8 x y 0x4
  | .sub x y => wordXYN 0x8 x y 0x5
  | .shr x y => wordXYN 0x8 x y 0x6
  | .subn x y => wordXYN 0x8 x y 0x7
  | .shl x y => wordXYN 0x8 x y 0xE
  | .sneReg x y => wordXYN 0x9 x y 0x0
  | .ldI nnn => wordNNN 0xA nnn
  | .jpV0 nnn => wordNNN 0xB nnn
  | .rnd x kk => wordXKK 0xC x kk.toNat
  | .drw x y n => wordXYN 0xD x y n.val
  | .skp x => wordXKK 0xE x 0x9E
  | .sknp x => wordXKK 0xE x 0xA1
  | .ldVxDt x => wordXKK 0xF x 0x07
  | .ldK x => wordXKK 0xF x 0x0A
  | .ldDt x => wordXKK 0xF x 0x15
  | .ldSt x => wordXKK 0xF x 0x18
  | .addI x => wordXKK 0xF x 0x1E
  | .ldF x => wordXKK 0xF x 0x29
  | .ldB x => wordXKK 0xF x 0x33
  | .ldStore x => wordXKK 0xF x 0x55
  | .ldLoad x => wordXKK 0xF x 0x65

/-! ### The mask and match columns of the opcode map -/

/-- The (mask, match) pair of an instruction's row in R86, copied from the table and used by neither `decode` nor
`encode`: the statements hold the two against it. -/
def Instr.pattern : Instr → Word × Word
  | .sys _ => (0xF000, 0x0000)
  | .cls => (0xFFFF, 0x00E0)
  | .ret => (0xFFFF, 0x00EE)
  | .jp _ => (0xF000, 0x1000)
  | .call _ => (0xF000, 0x2000)
  | .seImm _ _ => (0xF000, 0x3000)
  | .sneImm _ _ => (0xF000, 0x4000)
  | .seReg _ _ => (0xF00F, 0x5000)
  | .ldImm _ _ => (0xF000, 0x6000)
  | .addImm _ _ => (0xF000, 0x7000)
  | .ldReg _ _ => (0xF00F, 0x8000)
  | .orReg _ _ => (0xF00F, 0x8001)
  | .andReg _ _ => (0xF00F, 0x8002)
  | .xorReg _ _ => (0xF00F, 0x8003)
  | .addReg _ _ => (0xF00F, 0x8004)
  | .sub _ _ => (0xF00F, 0x8005)
  | .shr _ _ => (0xF00F, 0x8006)
  | .subn _ _ => (0xF00F, 0x8007)
  | .shl _ _ => (0xF00F, 0x800E)
  | .sneReg _ _ => (0xF00F, 0x9000)
  | .ldI _ => (0xF000, 0xA000)
  | .jpV0 _ => (0xF000, 0xB000)
  | .rnd _ _ => (0xF000, 0xC000)
  | .drw _ _ _ => (0xF000, 0xD000)
  | .skp _ => (0xF0FF, 0xE09E)
  | .sknp _ => (0xF0FF, 0xE0A1)
  | .ldVxDt _ => (0xF0FF, 0xF007)
  | .ldK _ => (0xF0FF, 0xF00A)
  | .ldDt _ => (0xF0FF, 0xF015)
  | .ldSt _ => (0xF0FF, 0xF018)
  | .addI _ => (0xF0FF, 0xF01E)
  | .ldF _ => (0xF0FF, 0xF029)
  | .ldB _ => (0xF0FF, 0xF033)
  | .ldStore _ => (0xF0FF, 0xF055)
  | .ldLoad _ => (0xF0FF, 0xF065)

/-! ### Bytes and words -/

/-- The byte at the lower address of a word laid out big-endian: `op[15:8]` (R61). -/
def highByte (op : Word) : Byte := BitVec.ofNat 8 (op.toNat / 256)

/-- The byte at the higher address: `op[7:0]` (R61). -/
def lowByte (op : Word) : Byte := BitVec.ofNat 8 (op.toNat % 256)

/-- `MemRead(a, 2) = MemRead(a, 1) * 256 + MemRead(a + 1, 1)` (R61). -/
def composeWord (hi lo : Byte) : Word := BitVec.ofNat 16 (hi.toNat * 256 + lo.toNat)

/-- The decoder over the two bytes of an instruction in memory order. -/
def decodeBytes (first second : Byte) : Option Instr := decode (composeWord first second)

/-- The word of an opcode-table row: bit 0 of `w` is the word's least significant bit, bits above `nbits` are 0. -/
def tableWord (nbits w : Nat) : Word := BitVec.ofNat 16 (w % 2 ^ nbits)

/-- The instruction the decoder reads from a word of the opcode table, laid out in memory as the block stores it. -/
def decodeTableWord (nbits w : Nat) : Option Instr :=
  decodeBytes (highByte (tableWord nbits w)) (lowByte (tableWord nbits w))

end Sys2Proof
end

