-- ==== Sys2Proof/Config.lean ====
section
/-! DEFINITION. What one instance of the block fixes (rules R7, R8, R10, R11, R12, R44) and the free values the spec
leaves open (rule R13). -/

namespace Sys2Proof

/-- SHIFT_QUIRK (R8): the source register of 8xy6 and 8xyE (R153, R154). -/
inductive ShiftQuirk where
  | inPlace
  | fromVy
deriving DecidableEq, Repr

/-- SYS_MODE (R10): what `SYS addr` does (R100). -/
inductive SysMode where
  | fault
  | ignore
deriving DecidableEq, Repr

/-- PC_CHECK (R11): whether a fetch enforces "always even, 0x200 ≤ PC" (R81). -/
inductive PcCheck where
  | strict
  | permissive
deriving DecidableEq, Repr

/-- The parameters of a block instance, fixed for its lifetime (R44). CYCLE_HZ is `Config.cycleHz`. -/
structure Config where
  shiftQuirk : ShiftQuirk
  sysMode    : SysMode
  pcCheck    : PcCheck
  /-- FONT_ROM: 16 glyphs of 5 bytes, copied to 0x000-0x04F at reset (R12, R43). -/
  fontRom    : Vector Byte 80
deriving DecidableEq, Repr

/-- The free draws of RND (R13): "a free 8-bit input of the cycle transition, under no law". Applied to the
number of the draw; no value of it can be proved. Log 3. -/
opaque Config.freeDraw : Nat → Byte

/-- CYCLE_HZ (R7), OPEN: the environment's rate of `cycle` strobes. No transition reads it. Log 14. -/
opaque Config.cycleHz : Nat

end Sys2Proof
end

