-- ==== Sys2Proof/Machine/Defaults.lean ====
section
/-! DEFINITION. Named sizes (rule R6; the others stand in the types of State), the default FONT_ROM (rule R43) and the default configuration (rules R8, R10,
R11, R12). -/

namespace Sys2Proof.Machine

/-- `PROG_BASE`: where a program image loads and where PC starts (R6, R28). -/
abbrev progBase : Nat := 0x200

/-- `MAX_IMAGE`: 4096 - 0x200 = 3584 bytes (R6, R306). -/
abbrev maxImage : Nat := 3584

/-- `GLYPH_BYTES`: 5 bytes per glyph (R6). -/
abbrev glyphBytes : Nat := 5

/-- `TIMER_HZ`: 60 ticks per second (R6). -/
abbrev timerHz : Nat := 60

/-- Glyphs 0 to 3 of the default font (R43). -/
def glyphs03 : List Byte :=
  [0xF0, 0x90, 0x90, 0x90, 0xF0] ++ [0x20, 0x60, 0x20, 0x20, 0x70] ++
  [0xF0, 0x10, 0xF0, 0x80, 0xF0] ++ [0xF0, 0x10, 0xF0, 0x10, 0xF0]

/-- Glyphs 4 to 7 of the default font (R43). -/
def glyphs47 : List Byte :=
  [0x90, 0x90, 0xF0, 0x10, 0x10] ++ [0xF0, 0x80, 0xF0, 0x10, 0xF0] ++
  [0xF0, 0x80, 0xF0, 0x90, 0xF0] ++ [0xF0, 0x10, 0x20, 0x40, 0x40]

/-- Glyphs 8 to B of the default font; glyph A is the source's own (R12, R43). -/
def glyphs8B : List Byte :=
  [0xF0, 0x90, 0xF0, 0x90, 0xF0] ++ [0xF0, 0x90, 0xF0, 0x10, 0xF0] ++
  [0xF0, 0x90, 0xF0, 0x90, 0x90] ++ [0xE0, 0x90, 0xE0, 0x90, 0xE0]

/-- Glyphs C to F of the default font (R43). -/
def glyphsCF : List Byte :=
  [0xF0, 0x80, 0x80, 0x80, 0xF0] ++ [0xE0, 0x90, 0x90, 0x90, 0xE0] ++
  [0xF0, 0x80, 0xF0, 0x80, 0xF0] ++ [0xF0, 0x80, 0xF0, 0x80, 0x80]

/-- The default FONT_ROM: glyph d at offsets 5d to 5d + 4 (R43). The 75 bytes outside glyph A are the spec's own
supply from general knowledge (log 12). -/
def defaultFontRom : Vector Byte 80 := ⟨⟨glyphs03 ++ glyphs47 ++ glyphs8B ++ glyphsCF⟩, by decide⟩

/-- Every parameter at the default the spec gives it (R8, R10, R11, R12). -/
def defaultConfig : Config where
  shiftQuirk := .inPlace
  sysMode := .fault
  pcCheck := .strict
  fontRom := defaultFontRom

end Sys2Proof.Machine
end

