-- ==== Sys2Proof/Machine/State.lean ====
section
/-! DEFINITION. The state of the block as plain data (10_state.md), the reasons a step can stop, and the state after
reset (rule R300). -/

namespace Sys2Proof.Machine

/-- No step stops with a fault: every error of the spec is a transition into `Halted` (R262, R265), which is a next
state. The type has no constructor, so nobody can raise one; safe. Log 5. -/
inductive Fault
deriving DecidableEq, Repr

/-- Why the model gives a step no meaning. -/
inductive Refusal where
  /-- Raised by `exec` alone, for an instruction that has no meaning yet; safe. No arm raises it now. -/
  | notModelled (mnemonic : String)
  /-- Raised by the `load` transaction after the first `cycle`: "A `load` at any other time is refused: the model gives
  it no meaning" (R305); safe. -/
  | loadAfterFirstCycle
deriving DecidableEq, Repr

/-- The error kinds of R260. -/
inductive ErrorKind where
  | decodeError
  | stackOverflow
  | stackUnderflow
  | outOfRange
  | programTooLarge
  | badPc
  | badKey
  | sysUnsupported
deriving DecidableEq, Repr

/-- The error record of a `Halted` state: kind, program counter, opcode or `none` (R39). -/
structure ErrorRecord where
  kind   : ErrorKind
  pc     : Word
  opcode : Option Word
deriving DecidableEq, Repr

/-- The run state (R36). -/
inductive RunState where
  | running
  /-- `LD Vx, K` is suspended and will write register `x` (R212). -/
  | waitingForKey (x : Reg)
  /-- A fatal error was raised (R262). -/
  | halted (e : ErrorRecord)
deriving DecidableEq, Repr

/-- The inputs of the block, one atomic transition each (R5, R45). -/
inductive Transaction where
  | reset
  | load (image : List Byte)
  /-- One instruction cycle; `rnd` is the draw an RND in it consumes (R270). -/
  | cycle (rnd : Byte)
  | tick
  | keyEvent (k : Key) (pressed : Bool)
  | fbRead (px : Fin 64) (py : Fin 32)
  | ackRedraw
deriving DecidableEq, Repr

/-- Memory as the list of the (address, byte) pairs that differ from the reset contents, addresses strictly rising.
Log 7. -/
abbrev Memory := List Host.Cell

/-- The framebuffer: 32 rows of 64 pixels (R41). -/
abbrev Framebuffer := Vector (Vector Bool 64) 32

/-- The state of the block: the record of 10_state.md, the configuration it carries unchanged (R44, log 1), the
`load` window (R305, log 4), and the model's own inputs `pending`, `draws` and `rnd` (logs 2 and 3). -/
structure State where
  /-- V[0..15] (R20). -/
  v       : Vector Byte 16
  /-- The address register I (R25). -/
  i       : Word
  /-- PC, the address of the instruction being executed (R27). -/
  pc      : Word
  /-- stack[0..15] (R31). -/
  stack   : Vector Word 16
  /-- SP, the number of stack entries in use, 0 to 16 (R31). -/
  sp      : Fin 17
  /-- The delay timer (R33). -/
  dt      : Byte
  /-- The sound timer (R33). -/
  st      : Byte
  /-- The run state (R36). -/
  run     : RunState
  /-- The redraw flag (R37). -/
  dirty   : Bool
  /-- The framebuffer (R41). -/
  fb      : Framebuffer
  /-- key[0..15], true = pressed (R42). -/
  key     : Vector Bool 16
  /-- mem[0x000..0xFFF] (R43). -/
  mem     : Memory
  /-- The parameters of the instance; no transition writes them (R44). -/
  cfg     : Config
  /-- A `cycle` has happened since `reset` (R305). -/
  started : Bool
  /-- The environment's next transactions, oldest first (R280); the model's own. -/
  pending : List Transaction
  /-- Draws consumed so far (R13); the model's own. -/
  draws   : Nat
  /-- The draw the current cycle was given, `none` = a free one (R13, R270); the model's own. -/
  rnd     : Option Byte
deriving DecidableEq, Repr

/-- The state after `reset` of a block with configuration `c` (R300). -/
def State.resetWith (c : Config) : State where
  v := Vector.replicate 16 0
  i := 0
  pc := 0x200
  stack := Vector.replicate 16 0
  sp := 0
  dt := 0
  st := 0
  run := .running
  dirty := false
  fb := Vector.replicate 32 (Vector.replicate 64 false)
  key := Vector.replicate 16 false
  mem := []
  cfg := c
  started := false
  pending := []
  draws := 0
  rnd := none

/-- The state after reset (R300) with every parameter at its default (R8, R10, R11, R43). -/
def State.reset : State := State.resetWith defaultConfig

end Sys2Proof.Machine
end

