-- ==== Sys2Proof/Machine/Ops.lean ====
section
/-! DEFINITION. The named operations over registers, memory, the call stack and the framebuffer (rules R15, R31, R60-R64,
R191-R194), the advance of PC (rules R27, R124), and raising an error (rules R260, R262). -/

namespace Sys2Proof.Machine

/-! ### Registers (R15, R20) -/

/-- `V[x]`. -/
def State.reg (s : State) (x : Reg) : Byte := s.v[x.val]

/-- `V[x] <- b`. No register is hard-wired (R20). -/
def State.setReg (s : State) (x : Reg) (b : Byte) : State := { s with v := s.v.set x.val b x.isLt }

/-- `V[x] <- b`, then `VF <- flag`: the flag is written last, so it wins when x = 0xF (R17, R141). -/
def State.setRegThenFlag (s : State) (x : Reg) (b flag : Byte) : State := (s.setReg x b).setReg vF flag

/-! ### The program counter (R27, R124) -/

/-- `PC <- PC + 2`. -/
def State.advance (s : State) : State := { s with pc := s.pc + 2 }

/-- `PC <- PC + 4` when the condition of a skip holds, `PC <- PC + 2` otherwise (R124). -/
def State.skipIf (s : State) (taken : Bool) : State := { s with pc := s.pc + (if taken then 4 else 2) }

/-! ### Memory (R60-R67) -/

/-- `InRange(a, n)`: no byte, or the last of the n bytes at most 0xFFF, in unbounded integers (R15, R64). -/
abbrev InRange (a n : Nat) : Prop := n = 0 ∨ a + n - 1 ≤ 0xFFF

/-- What an address reads as after reset, before anything is loaded or stored: FONT_ROM at 0x000-0x04F, 0 elsewhere
(R43). This is what an unlisted address reads as. -/
def Memory.base (c : Config) (a : Nat) : Byte := if h : a < 80 then c.fontRom[a] else 0

/-- `MemRead(a, 1)`: the byte last written at `a`, or its reset value (R67). Callers check `InRange` first (R64). -/
def Memory.read (c : Config) : Memory → Nat → Byte
  | [], a => Memory.base c a
  | (k, b) :: m, a => if a = k then b else Memory.read c m a

/-- `MemWrite(a, 1, b)`, keeping the canonical form. Callers check `InRange` first (R64). -/
def Memory.write (c : Config) : Memory → Nat → Byte → Memory
  | [], a, b => if b = Memory.base c a then [] else [(a, b)]
  | (k, x) :: m, a, b =>
    if a < k then (if b = Memory.base c a then (k, x) :: m else (a, b) :: (k, x) :: m)
    else if a = k then (if b = Memory.base c a then m else (a, b) :: m)
    else (k, x) :: Memory.write c m a b

/-- The bytes at `a`, `a + 1`, …, `a + n - 1`. -/
def Memory.readBytes (c : Config) (m : Memory) (a : Nat) : Nat → List Byte
  | 0 => []
  | n + 1 => Memory.read c m a :: Memory.readBytes c m (a + 1) n

/-- Write the bytes of a list at `a`, `a + 1`, … in ascending order. -/
def Memory.writeBytes (c : Config) (m : Memory) (a : Nat) : List Byte → Memory
  | [] => m
  | b :: bs => Memory.writeBytes c (Memory.write c m a b) (a + 1) bs

/-- The canonical form: addresses strictly rising and inside the 4096 bytes (R60), no entry equal to what an unlisted
address reads as. Log 7. -/
def Memory.wf (c : Config) (m : Memory) : Bool :=
  decide (m.Pairwise (fun p q => p.1 < q.1)) && m.all (fun p => decide (p.1 < 4096) && p.2 != Memory.base c p.1)

/-- The byte of memory at address `a`. -/
def State.byte (s : State) (a : Nat) : Byte := Memory.read s.cfg s.mem a

/-- The bytes of memory at `a`, …, `a + n - 1`. -/
def State.bytes (s : State) (a n : Nat) : List Byte := Memory.readBytes s.cfg s.mem a n

/-- Store the bytes of a list at `a`, `a + 1`, … (R65). -/
def State.store (s : State) (a : Nat) (bs : List Byte) : State := { s with mem := Memory.writeBytes s.cfg s.mem a bs }

/-! ### The call stack (R31) -/

/-- `stack[SP] <- ret`, `SP <- SP + 1`, or `none` when all 16 entries are in use (R102). -/
def State.push? (s : State) (ret : Word) : Option State :=
  if h : s.sp.val < 16 then
    some { s with stack := s.stack.set s.sp.val ret h, sp := ⟨s.sp.val + 1, Nat.succ_lt_succ h⟩ }
  else none

/-- `SP <- SP - 1`, and the entry `stack[SP]` then names, or `none` when the stack is empty. The entry keeps its value
(R103). -/
def State.pop? (s : State) : Option (Word × State) :=
  if h : 0 < s.sp.val then
    some (s.stack[s.sp.val - 1]'(by have := s.sp.isLt; omega), { s with sp := ⟨s.sp.val - 1, by have := s.sp.isLt; omega⟩ })
  else none

/-! ### The framebuffer (R41, R191-R194) -/

/-- `FB(px, py)`. -/
def Framebuffer.pixel (fb : Framebuffer) (px : Fin 64) (py : Fin 32) : Bool := fb[py.val][px.val]

/-- `FB(px, py) <- FB(px, py) ^ 1`. -/
def Framebuffer.flip (fb : Framebuffer) (px : Fin 64) (py : Fin 32) : Framebuffer :=
  fb.set py.val (fb[py.val].set px.val (!fb[py.val][px.val]) px.isLt) py.isLt

/-- Every pixel 0 (R190). -/
def Framebuffer.clear : Framebuffer := Vector.replicate 32 (Vector.replicate 64 false)

/-- A column reduced modulo the framebuffer's width (R194). -/
def wrapX (px : Nat) : Fin 64 := ⟨px % 64, Nat.mod_lt _ (by decide)⟩

/-- A row reduced modulo the framebuffer's height (R194). -/
def wrapY (py : Nat) : Fin 32 := ⟨py % 32, Nat.mod_lt _ (by decide)⟩

/-- Bit `7 - c` of a sprite byte is its column `c` (R192). -/
def spriteBit (b : Byte) (c : Nat) : Bool := b.getLsbD (7 - c)

/-- Draw one set sprite bit: the pixel is XORed, and a pixel that was 1 is a collision (R191, R193). The pair is the
framebuffer and `collision`. -/
def drawPixel (d : Framebuffer × Bool) (px py : Nat) : Framebuffer × Bool :=
  (Framebuffer.flip d.1 (wrapX px) (wrapY py), d.2 || Framebuffer.pixel d.1 (wrapX px) (wrapY py))

/-- Draw columns 0 to `k - 1` of one sprite row `b` at `(x0, py)` (R191). -/
def drawColumns (d : Framebuffer × Bool) (b : Byte) (x0 py : Nat) : Nat → Framebuffer × Bool
  | 0 => d
  | c + 1 =>
    if spriteBit b c then drawPixel (drawColumns d b x0 py c) (x0 + c) py
    else drawColumns d b x0 py c

/-- Draw the rows of a sprite, the first at row `y0` (R191). -/
def drawSprite (d : Framebuffer × Bool) (x0 y0 : Nat) : List Byte → Framebuffer × Bool
  | [] => d
  | b :: rows => drawSprite (drawColumns d b x0 y0 8) x0 (y0 + 1) rows

/-! ### Errors (R260, R262) -/

/-- The numeric code of an error kind (R260). -/
def ErrorKind.code : ErrorKind → Nat
  | .decodeError => 1
  | .stackOverflow => 2
  | .stackUnderflow => 3
  | .outOfRange => 4
  | .programTooLarge => 5
  | .badPc => 6
  | .badKey => 7
  | .sysUnsupported => 8

/-- The state after `raise kind(pc = PC, opcode)`: `run <- Halted((kind, PC, opcode))` and no other change (R262).
There is no handler, vector, saved status or mode (R265), and no return but `reset` (R266). -/
def State.halt (s : State) (kind : ErrorKind) (opcode : Option Word) : State :=
  { s with run := .halted { kind := kind, pc := s.pc, opcode := opcode } }

/-- Taking an error is a transition of its own into `Halted` (R262, R265). Log 5. -/
def raise (kind : ErrorKind) (opcode : Option Word) (s : State) : Host.Outcome State Fault Refusal :=
  .next (s.halt kind opcode)

/-- Raise the error of an instruction: the record's opcode is the instruction's word (R260). Log 6. -/
def raiseIn (kind : ErrorKind) (i : Instr) (s : State) : Host.Outcome State Fault Refusal :=
  raise kind (some (encode i)) s

end Sys2Proof.Machine
end

