-- ==== Sys2Proof/Machine/Operands.lean ====
section
/-! DEFINITION. The operand forms: address literals, the shift source (rules R153, R154), the key index (rule R216), the
font glyph address (rule R172), the random draw (rule R13), decimal digits (rule R240) and register ranges (rules R241,
R242). -/

namespace Sys2Proof.Machine

/-- `zext_16(nnn)` (R84). -/
def zextAddr (nnn : Addr) : Word := nnn.setWidth 16

/-- The source value of 8xy6 and 8xyE: Vx in place, or Vy (R153, R154). -/
def shiftSource (x y : Reg) (s : State) : Byte :=
  match s.cfg.shiftQuirk with
  | .inPlace => s.reg x
  | .fromVy => s.reg y

/-- The key a register value names, `none` above 0x0F (R216). -/
def keyIndex (b : Byte) : Option Key := if h : b.toNat < 16 then some ⟨b.toNat, h⟩ else none

/-- `key[k]` (R42). -/
def State.keyDown (s : State) (k : Key) : Bool := s.key[k.val]

/-- `5 * (Vx & 0x0F)`, the address of the glyph of a digit (R172). -/
def glyphAddress (b : Byte) : Word := BitVec.ofNat 16 (glyphBytes * (b &&& 0x0F).toNat)

/-- `draw8()`: the draw this cycle was given, or a free one, numbered by how many were consumed (R13). Log 3. -/
def State.draw8 (s : State) : Byte :=
  match s.rnd with
  | some b => b
  | none => Config.freeDraw s.draws

/-- The draw is consumed (R173). -/
def State.consumeDraw (s : State) : State := { s with draws := s.draws + 1 }

/-- Hundreds, tens and ones of a byte (R240). -/
def decimalDigits (b : Byte) : List Byte :=
  [BitVec.ofNat 8 (b.toNat / 100), BitVec.ofNat 8 (b.toNat / 10 % 10), BitVec.ofNat 8 (b.toNat % 10)]

/-- V0, …, Vx in ascending order (R241). -/
def State.regsUpTo (s : State) (x : Reg) : List Byte := s.v.toList.take (x.val + 1)

/-- Write a list of bytes to registers `k`, `k + 1`, … in ascending order (R242). -/
def loadRegs (v : Vector Byte 16) (k : Nat) : List Byte → Vector Byte 16
  | [] => v
  | b :: bs => if h : k < 16 then loadRegs (v.set k b h) (k + 1) bs else v

end Sys2Proof.Machine
end

