-- ==== Sys2Proof/Machine/Flags.lean ====
section
/-! DEFINITION. The values VF takes as a flag (rules R35, R141), and the results that go with them. Arithmetic is exact
on naturals and narrowed at the end (rules R16, R140). -/

namespace Sys2Proof.Machine

/-- A flag value: 1 or 0 (R35). -/
def flagOf (set : Bool) : Byte := if set then 1 else 0

/-- 8xy4: 1 iff the sum exceeds 255 (R148). -/
def carryFlag (a b : Byte) : Byte := flagOf (decide (a.toNat + b.toNat > 255))

/-- 8xy5 and 8xy7: 1 iff the minuend is strictly greater than the subtrahend (R149, R151). -/
def greaterFlag (minuend subtrahend : Byte) : Byte := flagOf (decide (minuend.toNat > subtrahend.toNat))

/-- 8xy6: bit 0 of the source before the shift (R150, R155). -/
def shrFlag (src : Byte) : Byte := flagOf (src.getLsbD 0)

/-- 8xyE: bit 7 of the source before the shift (R152, R155). -/
def shlFlag (src : Byte) : Byte := flagOf (src.getLsbD 7)

/-- Fx1E: 1 iff I + Vx exceeds 0xFFF (R171). -/
def addressFlag (i : Word) (b : Byte) : Byte := flagOf (decide (i.toNat + b.toNat > 0xFFF))

/-- `(a + b) mod 256` (R143, R148). -/
def sumByte (a b : Byte) : Byte := BitVec.ofNat 8 ((a.toNat + b.toNat) % 256)

/-- `(a - b) mod 256` (R149, R151). -/
def differenceByte (a b : Byte) : Byte := BitVec.ofNat 8 ((a.toNat + 256 - b.toNat) % 256)

/-- `(I + Vx) mod 2^16` (R171). -/
def sumAddress (i : Word) (b : Byte) : Word := BitVec.ofNat 16 ((i.toNat + b.toNat) % 2 ^ 16)

end Sys2Proof.Machine
end

