-- ==== Sys2Proof/Machine/AddressRandom.lean ====
section
/-! DEFINITION. Address register and random (43_address_random.md, rules R170-R173). -/

namespace Sys2Proof.Machine

/-- LD I, addr, Annn (R170). -/
def execLdI (nnn : Addr) (s : State) : Host.Outcome State Fault Refusal :=
  .next { s with i := zextAddr nnn }.advance

/-- ADD I, Vx, Fx1E (R171): Vx is read before VF is written. -/
def execAddI (x : Reg) (s : State) : Host.Outcome State Fault Refusal :=
  .next ({ s with i := sumAddress s.i (s.reg x) }.setReg vF (addressFlag s.i (s.reg x))).advance

/-- LD F, Vx, Fx29 (R172). -/
def execLdF (x : Reg) (s : State) : Host.Outcome State Fault Refusal :=
  .next { s with i := glyphAddress (s.reg x) }.advance

/-- RND Vx, byte, Cxkk (R173): one draw is consumed. -/
def execRnd (x : Reg) (kk : Byte) (s : State) : Host.Outcome State Fault Refusal :=
  .next (s.consumeDraw.setReg x (s.draw8 &&& kk)).advance

end Sys2Proof.Machine
end

