-- ==== Sys2Proof/Machine/Alu.lean ====
section
/-! DEFINITION. Register load and ALU (42_alu.md, rules R140-R155). Sources are read before any write, the flag is written last
(rule R141). -/

namespace Sys2Proof.Machine

/-- LD Vx, byte, 6xkk (R142). -/
def execLdImm (x : Reg) (kk : Byte) (s : State) : Host.Outcome State Fault Refusal :=
  .next (s.setReg x kk).advance

/-- ADD Vx, byte, 7xkk (R143): the carry is discarded and VF is not a flag here. -/
def execAddImm (x : Reg) (kk : Byte) (s : State) : Host.Outcome State Fault Refusal :=
  .next (s.setReg x (sumByte (s.reg x) kk)).advance

/-- LD Vx, Vy, 8xy0 (R144). -/
def execLdReg (x y : Reg) (s : State) : Host.Outcome State Fault Refusal :=
  .next (s.setReg x (s.reg y)).advance

/-- OR Vx, Vy, 8xy1 (R145); VF is not a flag here. -/
def execOrReg (x y : Reg) (s : State) : Host.Outcome State Fault Refusal :=
  .next (s.setReg x (s.reg x ||| s.reg y)).advance

/-- AND Vx, Vy, 8xy2 (R146); VF is not a flag here. -/
def execAndReg (x y : Reg) (s : State) : Host.Outcome State Fault Refusal :=
  .next (s.setReg x (s.reg x &&& s.reg y)).advance

/-- XOR Vx, Vy, 8xy3 (R147); VF is not a flag here. -/
def execXorReg (x y : Reg) (s : State) : Host.Outcome State Fault Refusal :=
  .next (s.setReg x (s.reg x ^^^ s.reg y)).advance

/-- ADD Vx, Vy, 8xy4 (R148). -/
def execAddReg (x y : Reg) (s : State) : Host.Outcome State Fault Refusal :=
  .next (s.setRegThenFlag x (sumByte (s.reg x) (s.reg y)) (carryFlag (s.reg x) (s.reg y))).advance

/-- SUB Vx, Vy, 8xy5 (R149): Vx is the minuend; equal operands give VF = 0. -/
def execSub (x y : Reg) (s : State) : Host.Outcome State Fault Refusal :=
  .next (s.setRegThenFlag x (differenceByte (s.reg x) (s.reg y)) (greaterFlag (s.reg x) (s.reg y))).advance

/-- SHR Vx, Vy, 8xy6 (R150, R155). -/
def execShr (x y : Reg) (s : State) : Host.Outcome State Fault Refusal :=
  .next (s.setRegThenFlag x (shiftSource x y s >>> 1) (shrFlag (shiftSource x y s))).advance

/-- SUBN Vx, Vy, 8xy7 (R151): Vy is the minuend. -/
def execSubn (x y : Reg) (s : State) : Host.Outcome State Fault Refusal :=
  .next (s.setRegThenFlag x (differenceByte (s.reg y) (s.reg x)) (greaterFlag (s.reg y) (s.reg x))).advance

/-- SHL Vx, Vy, 8xyE (R152, R155). -/
def execShl (x y : Reg) (s : State) : Host.Outcome State Fault Refusal :=
  .next (s.setRegThenFlag x (shiftSource x y s <<< 1) (shlFlag (shiftSource x y s))).advance

end Sys2Proof.Machine
end

