-- ==== Sys2Proof/Machine/ControlFlow.lean ====
section
/-! DEFINITION. Control flow: SYS, JP, CALL, RET, JP V0 (40_control_flow.md, rules R100-R106). -/

namespace Sys2Proof.Machine

/-- SYS addr, 0nnn (R100): `SysUnsupported` under `SYS_MODE = Fault`, `PC <- PC + 2` under `Ignore`. -/
def execSys (nnn : Addr) (s : State) : Host.Outcome State Fault Refusal :=
  match s.cfg.sysMode with
  | .fault => raiseIn .sysUnsupported (.sys nnn) s
  | .ignore => .next s.advance

/-- JP addr, 1nnn (R101); the target is checked at the next fetch, not here. -/
def execJp (nnn : Addr) (s : State) : Host.Outcome State Fault Refusal :=
  .next { s with pc := zextAddr nnn }

/-- CALL addr, 2nnn (R102): push PC + 2 and jump, or `StackOverflow` when 16 entries are in use. -/
def execCall (nnn : Addr) (s : State) : Host.Outcome State Fault Refusal :=
  match s.push? (s.pc + 2) with
  | some t => .next { t with pc := zextAddr nnn }
  | none => raiseIn .stackOverflow (.call nnn) s

/-- RET, 00EE (R103): pop into PC, or `StackUnderflow` when the stack is empty. -/
def execRet (s : State) : Host.Outcome State Fault Refusal :=
  match s.pop? with
  | some (target, t) => .next { t with pc := target }
  | none => raiseIn .stackUnderflow .ret s

/-- JP V0, addr, Bnnn (R104): always V0, whatever op[11:8] holds. -/
def execJpV0 (nnn : Addr) (s : State) : Host.Outcome State Fault Refusal :=
  .next { s with pc := zextAddr nnn + (s.reg 0).setWidth 16 }

end Sys2Proof.Machine
end

