-- ==== Sys2Proof/Machine/Display.lean ====
section
/-! DEFINITION. The framebuffer instructions CLS and DRW (44_display.md, rules R190-R198). -/

namespace Sys2Proof.Machine

/-- CLS, 00E0 (R190). -/
def execCls (s : State) : Host.Outcome State Fault Refusal :=
  .next { s with fb := Framebuffer.clear, dirty := true }.advance

/-- The framebuffer and collision that DRW gives with the sprite of `n` rows at I, drawn at (Vx, Vy) (R191). -/
def drawn (x y : Reg) (n : Nat) (s : State) : Framebuffer × Bool :=
  drawSprite (s.fb, false) (s.reg x).toNat (s.reg y).toNat (s.bytes s.i.toNat n)

/-- DRW Vx, Vy, nibble, Dxyn (R191): the range check comes before any change (R196), VF is written after all pixels
(R193). -/
def execDrw (x y : Reg) (n : Fin 16) (s : State) : Host.Outcome State Fault Refusal :=
  if InRange s.i.toNat n.val then
    .next ({ s with fb := (drawn x y n.val s).1, dirty := true }.setReg vF (flagOf (drawn x y n.val s).2)).advance
  else raiseIn .outOfRange (.drw x y n) s

end Sys2Proof.Machine
end

