-- ==== Sys2Proof/Machine/Keypad.lean ====
section
/-! DEFINITION. The keypad instructions SKP, SKNP and LD Vx, K (45_keypad.md, rules R210-R216). The key-release transition that
completes LD Vx, K (rule R213) is in Machine/Transact.lean. -/

namespace Sys2Proof.Machine

/-- SKP Vx, Ex9E (R210): `BadKey` when Vx names no key (R216). -/
def execSkp (x : Reg) (s : State) : Host.Outcome State Fault Refusal :=
  match keyIndex (s.reg x) with
  | some k => .next (s.skipIf (s.keyDown k))
  | none => raiseIn .badKey (.skp x) s

/-- SKNP Vx, ExA1 (R211): `BadKey` when Vx names no key (R216). -/
def execSknp (x : Reg) (s : State) : Host.Outcome State Fault Refusal :=
  match keyIndex (s.reg x) with
  | some k => .next (s.skipIf (!s.keyDown k))
  | none => raiseIn .badKey (.sknp x) s

/-- LD Vx, K, Fx0A (R212): enter the wait; PC is not advanced and no register is written yet. -/
def execLdK (x : Reg) (s : State) : Host.Outcome State Fault Refusal :=
  .next { s with run := .waitingForKey x }

end Sys2Proof.Machine
end

