-- ==== Sys2Proof/Machine/MemoryTransfer.lean ====
section
/-! DEFINITION. BCD and bulk register/memory transfer (47_memory_transfer.md, rules R240-R244). Every address is checked before
the first write, and I is never changed. -/

namespace Sys2Proof.Machine

/-- LD B, Vx, Fx33 (R240): hundreds, tens and ones at I, I + 1, I + 2. -/
def execLdB (x : Reg) (s : State) : Host.Outcome State Fault Refusal :=
  if InRange s.i.toNat 3 then .next (s.store s.i.toNat (decimalDigits (s.reg x))).advance
  else raiseIn .outOfRange (.ldB x) s

/-- LD [I], Vx, Fx55 (R241): V0..Vx at I, …, I + x. -/
def execLdStore (x : Reg) (s : State) : Host.Outcome State Fault Refusal :=
  if InRange s.i.toNat (x.val + 1) then .next (s.store s.i.toNat (s.regsUpTo x)).advance
  else raiseIn .outOfRange (.ldStore x) s

/-- LD Vx, [I], Fx65 (R242): V0..Vx from I, …, I + x. -/
def execLdLoad (x : Reg) (s : State) : Host.Outcome State Fault Refusal :=
  if InRange s.i.toNat (x.val + 1) then
    .next { s with v := loadRegs s.v 0 (s.bytes s.i.toNat (x.val + 1)) }.advance
  else raiseIn .outOfRange (.ldLoad x) s

end Sys2Proof.Machine
end

