-- ==== Sys2Proof/Machine/Timers.lean ====
section
/-! DEFINITION. Timer access (46_timers.md, rules R230-R232). The countdown is in Machine/Transact.lean. -/

namespace Sys2Proof.Machine

/-- LD Vx, DT, Fx07 (R230). -/
def execLdVxDt (x : Reg) (s : State) : Host.Outcome State Fault Refusal :=
  .next (s.setReg x s.dt).advance

/-- LD DT, Vx, Fx15 (R231). -/
def execLdDt (x : Reg) (s : State) : Host.Outcome State Fault Refusal :=
  .next { s with dt := s.reg x }.advance

/-- LD ST, Vx, Fx18 (R232). -/
def execLdSt (x : Reg) (s : State) : Host.Outcome State Fault Refusal :=
  .next { s with st := s.reg x }.advance

end Sys2Proof.Machine
end

