-- ==== Sys2Proof/Machine/Fetch.lean ====
section
/-! DEFINITION. Instruction fetch (rules R61, R80-R82). -/

namespace Sys2Proof.Machine

/-- "always even, 0x200 ≤ PC", the condition PC_CHECK = Strict enforces (R81). -/
abbrev PcAligned (pc : Word) : Prop := pc.toNat % 2 = 0 ∧ 0x200 ≤ pc.toNat

/-- A fetch at PC succeeds: both bytes lie in memory (R80), and under PC_CHECK = Strict the PC is even and at least
0x200 (R81). -/
abbrev FetchOk (s : State) : Prop :=
  InRange s.pc.toNat 2 ∧ (PcAligned s.pc ∨ s.cfg.pcCheck = .permissive)

/-- The word at PC, big-endian (R61, R82). -/
def State.wordAtPc (s : State) : Word := composeWord (s.byte s.pc.toNat) (s.byte (s.pc.toNat + 1))

/-- Fetch: the range check first (R80), then the PC check (R81), then the word (R82). -/
def fetch (s : State) : Except ErrorKind Word :=
  if InRange s.pc.toNat 2 then
    if PcAligned s.pc ∨ s.cfg.pcCheck = .permissive then .ok s.wordAtPc
    else .error .badPc
  else .error .outOfRange

end Sys2Proof.Machine
end

