-- ==== Sys2Proof/Machine/Cycle.lean ====
section
/-! DEFINITION. The instruction cycle (rules R263, R270, R271) and its result (rules R45, R261, R270). -/

namespace Sys2Proof.Machine

/-- Fetch, decode and execute one instruction (R270), in the order of R263: the fetch's errors, which record no opcode
(R39), DecodeError (R87), then the instruction's own. -/
def runInstruction (s : State) : Host.Outcome State Fault Refusal :=
  match fetch s with
  | .error kind => raise kind none s
  | .ok op =>
    match decode op with
    | none => raise .decodeError (some op) s
    | some i => exec i s

/-- The inputs of a cycle that executes: its draw (R13, R270); the `load` window is closed (R305). -/
def State.beginCycle (s : State) (rnd : Option Byte) : State := { s with started := true, rnd := rnd }

/-- `cycle(rnd)` (R270): in `Halted` and `WaitingForKey` nothing executes and nothing of the block changes (R215, R266);
only the `load` window closes (R305, log 4). `none` is a free draw (R13). -/
def cycle (rnd : Option Byte) (s : State) : Host.Outcome State Fault Refusal :=
  match s.run with
  | .running => runInstruction (s.beginCycle rnd)
  | .waitingForKey _ => .next { s with started := true }
  | .halted _ => .next { s with started := true }

/-- The instruction a `cycle` from this state executes, if it gets as far as executing one. -/
def State.nextInstr? (s : State) : Option Instr :=
  match s.run with
  | .running =>
    match fetch s with
    | .error _ => none
    | .ok op => decode op
  | .waitingForKey _ => none
  | .halted _ => none

/-- The instructions whose cycle asks for a redraw (R37, R270). -/
def redraws : Instr → Bool
  | .cls => true
  | .drw _ _ _ => true
  | .sys _ | .ret | .jp _ | .call _ | .seImm _ _ | .sneImm _ _ | .seReg _ _ | .ldImm _ _ | .addImm _ _
  | .ldReg _ _ | .orReg _ _ | .andReg _ _ | .xorReg _ _ | .addReg _ _ | .sub _ _ | .shr _ _ | .subn _ _ | .shl _ _
  | .sneReg _ _ | .ldI _ | .jpV0 _ | .rnd _ _ | .skp _ | .sknp _ | .ldVxDt _ | .ldK _ | .ldDt _ | .ldSt _
  | .addI _ | .ldF _ | .ldB _ | .ldStore _ | .ldLoad _ => false

/-- The error record of a halted block (R36, R39). -/
def RunState.error? : RunState → Option ErrorRecord
  | .running => none
  | .waitingForKey _ => none
  | .halted e => some e

/-- The result of the `cycle` transaction (R45): `redraw` is 1 iff the cycle executed CLS or DRW and raised nothing,
`error` is the record of a block the cycle halted or found halted (R270). -/
structure CycleResult where
  redraw : Bool
  error  : Option ErrorRecord
deriving DecidableEq, Repr

/-- The result of `cycle(rnd)` from state `s` (R270). Log 15. -/
def cycleResult (rnd : Option Byte) (s : State) : CycleResult :=
  match cycle rnd s with
  | .next t =>
    { redraw := t.run.error?.isNone && (match s.nextInstr? with | some i => redraws i | none => false)
      error := t.run.error? }
  | .fault _ => { redraw := false, error := none }
  | .refused _ => { redraw := false, error := none }

end Sys2Proof.Machine
end

