-- ==== Sys2Proof/Machine/Transact.lean ====
section
/-! DEFINITION. The block's transactions (rules R45, R46) and their responses: reset (R300, R302), load (R305, R306), tick
(R276, R277), key events (R213, R214), framebuffer reads (R273), redraw acknowledgement (R275), and the outputs the host
can read at any time (R36, R37, R278, R279). -/

namespace Sys2Proof.Machine

/-- `reset` (R300, R302): every field of the block at its reset value, in any run state. The instance keeps its
parameters (R44), and the environment keeps its schedule and does not repeat its draws (log 9). -/
def resetBlock (s : State) : State :=
  { State.resetWith s.cfg with pending := s.pending, draws := s.draws }

/-- The error of an image that is too large: the record of R306, unless the block is halted already, whose record no
later event changes (R266, log 11). -/
def rejectImage (s : State) : State :=
  match s.run with
  | .halted _ => s
  | .running => { s with run := .halted { kind := .programTooLarge, pc := 0x200, opcode := none } }
  | .waitingForKey _ => { s with run := .halted { kind := .programTooLarge, pc := 0x200, opcode := none } }

/-- `load(image)` (R306), accepted only before the first `cycle` (R305, log 4). -/
def loadImage (image : List Byte) (s : State) : Host.Outcome State Fault Refusal :=
  if s.started then .refused .loadAfterFirstCycle
  else if image.length > maxImage then .next (rejectImage s)
  else .next (s.store progBase image)

/-- One timer, one tick: a nonzero count goes down by 1, a zero count stays (R276). -/
def countDown (t : Byte) : Byte := if t.toNat > 0 then t - 1 else t

/-- `tick` (R276), in every run state (R277). -/
def tick (s : State) : State := { s with dt := countDown s.dt, st := countDown s.st }

/-- `key[k] <- pressed` (R214). -/
def State.setKey (s : State) (k : Key) (pressed : Bool) : State :=
  { s with key := s.key.set k.val pressed k.isLt }

/-- A key release completes LD Vx, K: the key's index goes to Vx, PC passes the instruction, the block runs again
(R213). -/
def resumeWithKey (x : Reg) (k : Key) (s : State) : State :=
  { ((s.setKey k false).setReg x (BitVec.ofNat 8 k.val)).advance with run := .running }

/-- `key_event(k, pressed)` (R214). -/
def keyEvent (k : Key) (pressed : Bool) (s : State) : State :=
  match s.run, pressed with
  | .waitingForKey x, false => resumeWithKey x k s
  | .waitingForKey _, true => s.setKey k true
  | .running, p => s.setKey k p
  | .halted _, p => s.setKey k p

/-- `ack_redraw`: `dirty <- 0` (R275). -/
def ackRedraw (s : State) : State := { s with dirty := false }

/-- One transaction of the block (R45), atomic (R5, R66). -/
def transact (t : Transaction) (s : State) : Host.Outcome State Fault Refusal :=
  match t with
  | .reset => .next (resetBlock s)
  | .load image => loadImage image s
  | .cycle rnd => cycle (some rnd) s
  | .tick => .next (tick s)
  | .keyEvent k pressed => .next (keyEvent k pressed s)
  | .fbRead _ _ => .next s
  | .ackRedraw => .next (ackRedraw s)

/-- Transactions one after another, stopping at a refusal. -/
def transactAll : List Transaction → State → Host.Outcome State Fault Refusal
  | [], s => .next s
  | t :: ts, s =>
    match transact t s with
    | .next s' => transactAll ts s'
    | .fault r => .fault r
    | .refused r => .refused r

/-- What a transaction answers the host (R45). -/
inductive Response where
  | silent
  /-- The result of a `cycle` (R270). -/
  | cycleDone (result : CycleResult)
  /-- The result of a `load`: the record of the error it raised, if any (R261, R306; log 11 for a halted block). -/
  | loadDone (error : Option ErrorRecord)
  /-- The pixel an `fb_read` returns (R273). -/
  | pixelRead (bit : Bool)
deriving DecidableEq, Repr

/-- The response to a transaction in state `s` (R45, R261, R270, R273). Log 15. DESIGN CHOICE: the spec does not say what a
`load` answers in a block that an earlier oversized `load` has halted; here a fitting image, which raises nothing, answers
no record, and another oversized one answers the record the block holds. Log 11. -/
def respond (t : Transaction) (s : State) : Response :=
  match t with
  | .cycle rnd => .cycleDone (cycleResult (some rnd) s)
  | .load image =>
    match loadImage image s with
    | .next s' => .loadDone (if image.length > maxImage then s'.run.error? else none)
    | .fault _ => .silent
    | .refused _ => .silent
  | .fbRead px py => .pixelRead (Framebuffer.pixel s.fb px py)
  | .reset | .tick | .keyEvent _ _ | .ackRedraw => .silent

/-- The `sound_timer` output (R279). -/
def State.soundTimer (s : State) : Byte := s.st

/-- The `dirty` output (R37). -/
def State.redrawNeeded (s : State) : Bool := s.dirty

/-- The `status` output: the run state with its error record (R36, R45). -/
def State.status (s : State) : RunState := s.run

/-- The event the host stops its tone on: ST went from nonzero to zero (R278). -/
def soundStops (before after : State) : Bool := before.soundTimer != 0 && after.soundTimer == 0

end Sys2Proof.Machine
end

