-- ==== Sys2Proof/Machine/Schedule.lean ====
section
/-! DEFINITION. The environment's scheduling contract (rules R281-R283) as schedules of transactions. It is not part of
the block: no transition depends on it (R280, R314), and a claim about timer values takes a schedule as a premise
(R282). Log 14. -/

namespace Sys2Proof.Machine

/-- How many strobes of rate `hz` are due after `ticks / perSecond` seconds: `floor(t * hz)` (R281, R282). -/
def strobesDue (hz ticks perSecond : Nat) : Nat := ticks * hz / perSecond

/-- `cycle` strobes due after `ms` milliseconds at the instance's CYCLE_HZ (R281). -/
def cyclesDue (ms : Nat) : Nat := strobesDue Config.cycleHz ms 1000

/-- `tick` strobes due after `ms` milliseconds (R282); the number of cycles has no part in it. -/
def ticksDue (ms : Nat) : Nat := strobesDue timerHz ms 1000

/-- One host frame of the deterministic simulator (R283): the cycles due, then the ticks due, then the key events, then
the framebuffer reads. -/
def hostFrame (draws : List Byte) (nTicks : Nat) (keys : List (Key × Bool)) (reads : List (Fin 64 × Fin 32)) :
    List Transaction :=
  draws.map .cycle ++ List.replicate nTicks .tick ++ keys.map (fun e => .keyEvent e.1 e.2) ++
    reads.map (fun p => .fbRead p.1 p.2)

/-- How many ticks a schedule holds. -/
def tickCount : List Transaction → Nat
  | [] => 0
  | .tick :: ts => tickCount ts + 1
  | .reset :: ts | .load _ :: ts | .cycle _ :: ts | .keyEvent _ _ :: ts | .fbRead _ _ :: ts | .ackRedraw :: ts =>
    tickCount ts

end Sys2Proof.Machine
end

