-- ==== Sys2Proof/Machine/Step.lean ====
section
/-! DEFINITION. One step of the machine: the environment's next transaction, or an instruction cycle where it has decided
on none (rules R270, R280; log 2). -/

namespace Sys2Proof.Machine

/-- One step: the first pending transaction (R280), and with none pending one `cycle` with a free draw (R13). -/
def step (s : State) : Host.Outcome State Fault Refusal :=
  match s.pending with
  | [] => cycle none s
  | t :: rest => transact t { s with pending := rest }

/-- Where the next instruction can be fetched: PC if a fetch there succeeds, else the reset PC. -/
def State.fetchPc (s : State) : Word := if FetchOk s then s.pc else 0x200

/-- `s` with the word of an opcode-table row stored where the next instruction is fetched, big-endian (R61), and the block
about to run it: `Running`, at a PC that a fetch accepts, no transaction pending. Log 10. -/
def State.withFetchWord (s : State) (nbits w : Nat) : State :=
  { s.store s.fetchPc.toNat [highByte (tableWord nbits w), lowByte (tableWord nbits w)] with
    pc := s.fetchPc, run := .running, pending := [] }

end Sys2Proof.Machine
end

