-- ==== Sys2Proof/Safety.lean ====
section
/-! DEFINITION. What counts as a safe run, the invariant of the block, and the vocabulary of the statements: frames,
reset values, sprite coverage, causes of errors. -/

namespace Sys2Proof.Machine

/-! ### Safe runs -/

/-- The block has raised no error (R36, R262). -/
def State.Healthy (s : State) : Prop := s.run.error? = none

/-- `n` steps that meet no refusal and leave the block healthy. -/
def SafeRun (n : Nat) (s : State) : Prop := ∃ t, Host.Core.run core n s = .next t ∧ t.Healthy

/-! ### Frames -/

/-- Every byte of memory reads as before. -/
def SameMemory (s t : State) : Prop := ∀ a, t.byte a = s.byte a

/-- Every byte of memory outside `a`, …, `a + n - 1` reads as before. -/
def SameMemoryOutside (a n : Nat) (s t : State) : Prop := ∀ b, b < a ∨ a + n ≤ b → t.byte b = s.byte b

/-- `b` is what address `a` reads after Fx55 with register index `x` has stored in `s`: the register that goes there
(R241), and the old byte outside I, …, I + x. -/
def ByteAfterStore (x : Reg) (s : State) (a : Nat) (b : Byte) : Prop :=
  (∀ r : Reg, r.val ≤ x.val → a = s.i.toNat + r.val → b = s.reg r) ∧
  (a < s.i.toNat ∨ s.i.toNat + x.val < a → b = s.byte a)

/-- The same after Fx33: a decimal digit of Vx at I, I + 1 and I + 2 (R240), and the old byte outside. -/
def ByteAfterBcd (x : Reg) (s : State) (a : Nat) (b : Byte) : Prop :=
  (a = s.i.toNat → b.toNat = (s.reg x).toNat / 100) ∧
  (a = s.i.toNat + 1 → b.toNat = (s.reg x).toNat / 10 % 10) ∧
  (a = s.i.toNat + 2 → b.toNat = (s.reg x).toNat % 10) ∧
  (a < s.i.toNat ∨ s.i.toNat + 2 < a → b = s.byte a)

/-- `t` is `s` after an instruction whose one destination is Vx: Vx holds `b`, every other register keeps its value, PC
is past the instruction, and nothing else of the state differs. -/
def WritesReg (x : Reg) (b : Byte) (s t : State) : Prop :=
  (∀ r, t.reg r = if r = x then b else s.reg r) ∧ t.pc = s.pc + 2 ∧
  t = { s with v := t.v, pc := t.pc } ∧ SameMemory s t

/-- The same for an instruction that writes a result to Vx and then a flag to VF (R141): VF holds the flag, also where
x = 0xF. -/
def WritesRegThenFlag (x : Reg) (b flag : Byte) (s t : State) : Prop :=
  (∀ r, t.reg r = if r = vF then flag else if r = x then b else s.reg r) ∧ t.pc = s.pc + 2 ∧
  t = { s with v := t.v, pc := t.pc } ∧ SameMemory s t

/-- `t` is `s` halted with the record (kind, PC, opcode), and nothing else differs (R262). -/
def HaltsWith (kind : ErrorKind) (opcode : Option Word) (s t : State) : Prop :=
  t = { s with run := .halted { kind := kind, pc := s.pc, opcode := opcode } }

/-! ### Reset values -/

/-- Every field that 10_state.md gives a reset value holds it, memory as FONT_ROM of `t`'s own configuration and 0 (R300). -/
def HasResetValues (t : State) : Prop :=
  (∀ r, t.reg r = 0) ∧ t.i = 0 ∧ t.pc = 0x200 ∧ t.sp = 0 ∧ (∀ j : Fin 16, t.stack[j.val] = 0) ∧ t.dt = 0 ∧ t.st = 0 ∧
  t.run = .running ∧ t.dirty = false ∧ (∀ px py, Framebuffer.pixel t.fb px py = false) ∧
  (∀ k : Key, t.key[k.val] = false) ∧ (∀ a, (h : a < 80) → t.byte a = t.cfg.fontRom[a]) ∧ (∀ a, 80 ≤ a → t.byte a = 0)

/-! ### Sprites (R191, R192, R194) -/

/-- The sprite of `n` rows at I, drawn at (Vx, Vy), has a set bit on the pixel: row `r`, column `c`, bit `7 - c`, both
coordinates reduced modulo the framebuffer's size. -/
def SpriteCovers (s : State) (x y : Reg) (n : Nat) (px : Fin 64) (py : Fin 32) : Prop :=
  ∃ r c, r < n ∧ c < 8 ∧ (s.byte (s.i.toNat + r)).getLsbD (7 - c) = true ∧
    ((s.reg x).toNat + c) % 64 = px.val ∧ ((s.reg y).toNat + r) % 32 = py.val

/-! ### The invariant of the block -/

/-- FONT_ROM holds the source's glyph A at offsets 50 to 54 (R12). -/
def GlyphAFixed (c : Config) : Prop :=
  c.fontRom[50] = 0xF0 ∧ c.fontRom[51] = 0x90 ∧ c.fontRom[52] = 0xF0 ∧ c.fontRom[53] = 0x90 ∧ c.fontRom[54] = 0x90

/-- How many bytes an instruction accesses through I, if it accesses memory (R65). -/
def dataLength : Instr → Option Nat
  | .drw _ _ n => some n.val
  | .ldB _ => some 3
  | .ldStore x => some (x.val + 1)
  | .ldLoad x => some (x.val + 1)
  | .sys _ | .cls | .ret | .jp _ | .call _ | .seImm _ _ | .sneImm _ _ | .seReg _ _ | .ldImm _ _ | .addImm _ _
  | .ldReg _ _ | .orReg _ _ | .andReg _ _ | .xorReg _ _ | .addReg _ _ | .sub _ _ | .shr _ _ | .subn _ _ | .shl _ _
  | .sneReg _ _ | .ldI _ | .jpV0 _ | .rnd _ _ | .skp _ | .sknp _ | .ldVxDt _ | .ldK _ | .ldDt _ | .ldSt _
  | .addI _ | .ldF _ => none

/-- The cause an error record names holds in the halted state (the table of R260). -/
def RecordFits (e : ErrorRecord) (s : State) : Prop :=
  match e.kind with
  | .decodeError => ∃ op, e.opcode = some op ∧ decode op = none
  | .stackOverflow => ∃ nnn, e.opcode = some (encode (.call nnn)) ∧ s.sp.val = 16
  | .stackUnderflow => e.opcode = some 0x00EE ∧ s.sp.val = 0
  | .outOfRange =>
    (e.opcode = none ∧ ¬ InRange s.pc.toNat 2) ∨
    (∃ i n, e.opcode = some (encode i) ∧ dataLength i = some n ∧ ¬ InRange s.i.toNat n)
  | .programTooLarge => e.opcode = none ∧ e.pc = 0x200
  | .badPc => e.opcode = none ∧ s.cfg.pcCheck = .strict ∧ ¬ PcAligned s.pc
  | .badKey => ∃ x, (e.opcode = some (encode (.skp x)) ∨ e.opcode = some (encode (.sknp x))) ∧ (s.reg x).toNat > 0xF
  | .sysUnsupported => ∃ nnn, e.opcode = some (encode (.sys nnn)) ∧ s.cfg.sysMode = .fault

/-- The invariant every step keeps. -/
structure State.Inv (s : State) : Prop where
  /-- Memory keeps its canonical form (log 7). -/
  memory : Memory.wf s.cfg s.mem = true
  /-- The font parameter meets its constraint (R12). -/
  glyphA : GlyphAFixed s.cfg
  /-- PC never wraps: no instruction sets it above 0x10FE (R30, R104). -/
  pcBound : s.pc.toNat ≤ 0x10FE
  /-- Return addresses in use are at most 0x1000 (R30). -/
  stackBound : ∀ j : Fin 16, j.val < s.sp.val → s.stack[j.val].toNat ≤ 0x1000
  /-- Under PC_CHECK = Strict they are even and above 0x200, being PC + 2 of a fetched CALL (R81, R102). -/
  stackAligned : s.cfg.pcCheck = .strict → ∀ j : Fin 16, j.val < s.sp.val → PcAligned s.stack[j.val]
  /-- While a key is awaited PC is the address of a fetched instruction (R212). -/
  waitPc : ∀ x, s.run = .waitingForKey x → FetchOk s
  /-- A halted block's record names its PC and a cause that holds (R39, R260, R262). -/
  haltRecord : ∀ e, s.run = .halted e → e.pc = s.pc ∧ RecordFits e s
  /-- Before the first cycle PC is the reset PC and the only error is an image that was too large (R28, R306). -/
  beforeStart : s.started = false →
    s.pc = 0x200 ∧ (s.run = .running ∨ s.run = .halted { kind := .programTooLarge, pc := 0x200, opcode := none })

/-! ### Schedules -/

/-- Along a schedule no `reset` is delivered and no cycle executes LD DT, Vx: nothing but ticks writes DT (R33). -/
def NeverWritesDt : List Transaction → State → Prop
  | [], _ => True
  | t :: ts, s =>
    t ≠ .reset ∧ (∀ rnd, t = .cycle rnd → ∀ x, s.nextInstr? ≠ some (.ldDt x)) ∧
    ∀ s', transact t s = .next s' → NeverWritesDt ts s'

end Sys2Proof.Machine
end

