-- ==== Sys2Proof/Certificates/Slice0/Obligations.lean ====
section
/-! DEFINITION. The statements about the model, for the provers. Each docstring names the rule of spec/ it formalises; a
clause that is the model's choice names its log entry. -/

open Sys2Proof Sys2Proof.Machine

/-! ### Encoding (30_encoding.md) -/

/-- Decoding the word of a well-formed instruction gives the instruction back, with every operand (R83, R85, R86). -/
def Obligations.DecodeOfEncodeIsIdentity : Prop :=
  ∀ i : Instr, i.wellFormed = true → decode (encode i) = some i

/-- Every recognised word is the word of the instruction it decodes to, and that instruction is well formed: no bit of a
word is dropped (R83, R90). -/
def Obligations.EncodeOfDecodeIsIdentity : Prop :=
  ∀ (op : Word) (i : Instr), decode op = some i → encode i = op ∧ i.wellFormed = true

/-- R85 against the mask and match columns of R86: a decoded word matches its instruction's row; a word that matches some
row decodes to that row's instruction, except that 00E0 and 00EE, which also match SYS, decode to CLS and RET. -/
def Obligations.DecodeFollowsMaskAndMatch : Prop :=
  (∀ (op : Word) (i : Instr), decode op = some i → op &&& i.pattern.1 = i.pattern.2) ∧
  (∀ (op : Word) (j : Instr), op &&& j.pattern.1 = j.pattern.2 →
    ∃ i, decode op = some i ∧
      (i.pattern = j.pattern ∨
        (j.pattern = (0xF000, 0x0000) ∧ ((op = 0x00E0 ∧ i = .cls) ∨ (op = 0x00EE ∧ i = .ret)))))

/-- The words that match no row, by family (the table of R88). -/
def Obligations.UnrecognisedWordsAreTheListedOnes : Prop :=
  ∀ op : Word, decode op = none ↔
    (op.toNat / 4096 = 0x5 ∧ op.toNat % 16 ≠ 0) ∨
    (op.toNat / 4096 = 0x8 ∧ op.toNat % 16 ∈ [0x8, 0x9, 0xA, 0xB, 0xC, 0xD, 0xF]) ∨
    (op.toNat / 4096 = 0x9 ∧ op.toNat % 16 ≠ 0) ∨
    (op.toNat / 4096 = 0xE ∧ op.toNat % 256 ∉ [0x9E, 0xA1]) ∨
    (op.toNat / 4096 = 0xF ∧ op.toNat % 256 ∉ [0x07, 0x0A, 0x15, 0x18, 0x1E, 0x29, 0x33, 0x55, 0x65])

/-- Words written out from the encodings of R86, one of each format, and the source's unrecognised word. -/
def Obligations.SampleWordsDecode : Prop :=
  decode 0b0000000011100000 = some .cls ∧
  decode 0b0010001100000001 = some (.call 0x301) ∧
  decode 0b0111000011111111 = some (.addImm 0 0xFF) ∧
  decode 0b1000000100100100 = some (.addReg 1 2) ∧
  decode 0b1101000100100101 = some (.drw 1 2 5) ∧
  decode 0b1111001001100101 = some (.ldLoad 2) ∧
  decode 0b1111111111111111 = none

/-! ### Fetch, the cycle and errors (30_encoding.md, 60_exceptions.md) -/

/-- A step runs the decoded instruction: in `Running`, at a PC that a fetch accepts (R80, R81), when the big-endian word
at PC (R61) decodes to `i`, a step is `exec i`. Around it the model closes the `load` window (log 4) and sets the cycle's
draw: free when the environment has nothing pending, the given byte when a `cycle` is pending (logs 2 and 3). -/
def Obligations.StepRunsDecodedInstruction : Prop :=
  ∀ (s : State) (i : Instr), s.run = .running → s.pc.toNat ≤ 0xFFE →
    (s.cfg.pcCheck = .strict → s.pc.toNat % 2 = 0 ∧ 0x200 ≤ s.pc.toNat) →
    decode (BitVec.ofNat 16 ((s.byte s.pc.toNat).toNat * 256 + (s.byte (s.pc.toNat + 1)).toNat)) = some i →
    (s.pending = [] → step s = exec i { s with started := true, rnd := none }) ∧
    (∀ b rest, s.pending = .cycle b :: rest →
      step s = exec i { s with pending := rest, started := true, rnd := some b })

/-- After `withFetchWord`, one step runs exactly the instruction of that word, from any state (log 10). -/
def Obligations.PlacedWordRunsNext : Prop :=
  ∀ (s : State) (w : Nat) (i : Instr), Memory.wf s.cfg s.mem = true → decodeTableWord 16 w = some i →
    step (s.withFetchWord 16 w) = exec i { s.withFetchWord 16 w with started := true, rnd := none }

/-- R80: a fetch above 0xFFE raises OutOfRange with pc = PC and no opcode, and nothing else changes. (`started` and `rnd`
are the model's own bookkeeping of the cycle, logs 3 and 4.) -/
def Obligations.FetchOutOfRangeRaises : Prop :=
  ∀ (s : State) (rnd : Option Byte), s.run = .running → s.pc.toNat > 0xFFE →
    ∃ t, cycle rnd s = .next t ∧ HaltsWith .outOfRange none { s with started := true, rnd := rnd } t

/-- R81: past the range check, under Strict an odd PC or one below 0x200 raises BadPc with pc = PC and no opcode, and
nothing else changes; under Permissive the check is skipped and the word at PC is fetched. (`started` and `rnd`: logs 3
and 4.) -/
def Obligations.BadPcRaisesUnderStrictOnly : Prop :=
  ∀ (s : State) (rnd : Option Byte), s.run = .running → s.pc.toNat ≤ 0xFFE →
    (s.cfg.pcCheck = .strict → (s.pc.toNat % 2 = 1 ∨ s.pc.toNat < 0x200) →
      ∃ t, cycle rnd s = .next t ∧ HaltsWith .badPc none { s with started := true, rnd := rnd } t) ∧
    (s.cfg.pcCheck = .permissive →
      fetch s = .ok (BitVec.ofNat 16 ((s.byte s.pc.toNat).toNat * 256 + (s.byte (s.pc.toNat + 1)).toNat)))

/-- R87: a fetched word that matches no row raises DecodeError with pc = PC and opcode = op, and nothing else changes.
(`started` and `rnd`: logs 3 and 4.) -/
def Obligations.UnrecognisedWordRaisesDecodeError : Prop :=
  ∀ (s : State) (rnd : Option Byte) (op : Word), s.run = .running → fetch s = .ok op → decode op = none →
    ∃ t, cycle rnd s = .next t ∧ HaltsWith .decodeError (some op) { s with started := true, rnd := rnd } t

/-- R215 and R270: a cycle in `WaitingForKey` or `Halted` changes nothing of the block, and its result is redraw = 0 with
no error while waiting and the record when halted. (`started` is the model's own, log 4.) -/
def Obligations.CycleOutsideRunningChangesNothing : Prop :=
  ∀ (s : State) (rnd : Option Byte),
    (∀ x, s.run = .waitingForKey x →
      cycle rnd s = .next { s with started := true } ∧ cycleResult rnd s = { redraw := false, error := none }) ∧
    (∀ e, s.run = .halted e →
      cycle rnd s = .next { s with started := true } ∧ cycleResult rnd s = { redraw := false, error := some e })

/-- R266: no transaction but `reset` changes the run state or the record of a halted block, and the block's registers, I,
PC, stack, SP and framebuffer stay as they are. R302: `reset` is accepted in every state and leaves the block running. -/
def Obligations.HaltedIsLeftOnlyByReset : Prop :=
  (∀ (s t : State) (tr : Transaction) (e : ErrorRecord), s.run = .halted e → tr ≠ .reset → transact tr s = .next t →
    t.run = .halted e ∧ t.v = s.v ∧ t.i = s.i ∧ t.pc = s.pc ∧ t.stack = s.stack ∧ t.sp = s.sp ∧ t.fb = s.fb) ∧
  (∀ s : State, ∃ t, transact .reset s = .next t ∧ t.run = .running)

/-- R262: an error changes `run` and nothing else, its record holds the PC of the instruction, and the redraw output is
0; likewise for a rejected image. (`started` and `rnd` are the model's own, logs 3 and 4.) -/
def Obligations.ErrorsArePrecise : Prop :=
  (∀ (s t : State) (rnd : Option Byte) (e : ErrorRecord), s.run = .running → cycle rnd s = .next t →
    t.run = .halted e →
    e.pc = s.pc ∧ t = { s with run := .halted e, started := true, rnd := rnd } ∧
      cycleResult rnd s = { redraw := false, error := some e }) ∧
  (∀ (s t : State) (image : List Byte) (e : ErrorRecord), s.run = .running → loadImage image s = .next t →
    t.run = .halted e → t = { s with run := .halted e })

/-- The opcode of a record is the word that was fetched at its PC; it is absent exactly when the fetch itself failed
(R39). The model recovers the word by encoding the instruction (log 6), so this says the two agree. -/
def Obligations.ErrorRecordHoldsTheFetchedWord : Prop :=
  ∀ (s t : State) (rnd : Option Byte) (e : ErrorRecord), s.run = .running → cycle rnd s = .next t →
    t.run = .halted e →
    (∀ op, fetch s = .ok op → e.opcode = some op) ∧
    (∀ kind, fetch s = .error kind → e.opcode = none ∧ e.kind = kind)

/-- Every instruction answers a next state from every state: an error is a transition into `Halted`, and no instruction
faults or is refused (R262, R267). -/
def Obligations.EveryInstructionAnswersNext : Prop :=
  ∀ (i : Instr) (s : State), ∃ t, exec i s = .next t

/-- R271: a cycle in `Running` that raises nothing executed an instruction, and leaves `Running`, except that LD Vx, K
leaves `WaitingForKey(x)`. (The state it is executed in has `started` and `rnd` set, the model's own choice: logs 3
and 4.) -/
def Obligations.RunStateAfterACycle : Prop :=
  ∀ (s t : State) (rnd : Option Byte), s.run = .running → cycle rnd s = .next t → t.Healthy →
    ∃ i, s.nextInstr? = some i ∧ exec i { s with started := true, rnd := rnd } = .next t ∧
      ((∀ x, i ≠ .ldK x) → t.run = .running) ∧ (∀ x, i = .ldK x → t.run = .waitingForKey x)

/-- R270: the redraw output is 1 exactly when the cycle executed CLS or DRW and raised nothing. -/
def Obligations.RedrawOutputIsClsOrDrw : Prop :=
  ∀ (s : State) (rnd : Option Byte),
    (cycleResult rnd s).redraw = true ↔
      s.run = .running ∧ (∃ t, cycle rnd s = .next t ∧ t.Healthy) ∧
      (s.nextInstr? = some .cls ∨ ∃ x y n, s.nextInstr? = some (.drw x y n))

/-! ### The invariant -/

/-- The invariant holds after reset, for every configuration whose FONT_ROM meets its constraint (R12, R300). -/
def Obligations.InvariantAtReset : Prop :=
  State.reset.Inv ∧ ∀ c, GlyphAFixed c → (State.resetWith c).Inv

/-- Every step keeps the invariant, whatever transaction it performs: the memory's canonical form, the bounds of PC and
of the return addresses (R30), their alignment under Strict, the PC of a key wait, and the cause of every error record
(R260). -/
def Obligations.EveryStepKeepsTheInvariant : Prop :=
  ∀ s t : State, s.Inv → step s = .next t → t.Inv

/-! ### Control flow (40_control_flow.md) -/

/-- R100: SYS raises SysUnsupported, with its own word in the record, under SYS_MODE = Fault; under Ignore it advances PC
by 2 and changes nothing else. -/
def Obligations.SysFaultsOrIsIgnored : Prop :=
  ∀ (s : State) (nnn : Addr),
    (s.cfg.sysMode = .fault →
      ∃ t, exec (.sys nnn) s = .next t ∧ HaltsWith .sysUnsupported (some (BitVec.ofNat 16 nnn.toNat)) s t) ∧
    (s.cfg.sysMode = .ignore → ∃ t, exec (.sys nnn) s = .next t ∧ t = { s with pc := s.pc + 2 } ∧ SameMemory s t)

/-- R101 and R104: JP sets PC to nnn, JP V0 to nnn + V0 without wrap, whatever op[11:8] holds; nothing else changes. -/
def Obligations.JumpsSetThePc : Prop :=
  ∀ (s : State) (nnn : Addr),
    (∃ t, exec (.jp nnn) s = .next t ∧ t.pc.toNat = nnn.toNat ∧ t = { s with pc := t.pc } ∧ SameMemory s t) ∧
    (∃ t, exec (.jpV0 nnn) s = .next t ∧ t.pc.toNat = nnn.toNat + (s.reg 0).toNat ∧ t = { s with pc := t.pc } ∧
      SameMemory s t)

/-- R102: CALL pushes PC + 2, increments SP and jumps; with 16 entries in use it raises StackOverflow with its own word,
and nothing else changes. -/
def Obligations.CallPushesOrOverflows : Prop :=
  ∀ (s : State) (nnn : Addr),
    (s.sp.val < 16 → ∃ t, exec (.call nnn) s = .next t ∧ t.pc.toNat = nnn.toNat ∧ t.sp.val = s.sp.val + 1 ∧
      (∀ j : Fin 16, t.stack[j.val] = if j.val = s.sp.val then s.pc + 2 else s.stack[j.val]) ∧
      t = { s with pc := t.pc, sp := t.sp, stack := t.stack } ∧ SameMemory s t) ∧
    (s.sp.val = 16 →
      ∃ t, exec (.call nnn) s = .next t ∧ HaltsWith .stackOverflow (some (BitVec.ofNat 16 (0x2000 + nnn.toNat))) s t)

/-- R103: RET decrements SP and jumps to the entry it then names, which keeps its value; with an empty stack it raises
StackUnderflow, and nothing else changes. -/
def Obligations.RetPopsOrUnderflows : Prop :=
  ∀ s : State,
    (∀ j : Fin 16, s.sp.val = j.val + 1 → ∃ t, exec .ret s = .next t ∧ t.pc = s.stack[j.val] ∧ t.sp.val = j.val ∧
      t = { s with pc := t.pc, sp := t.sp } ∧ SameMemory s t) ∧
    (s.sp.val = 0 → ∃ t, exec .ret s = .next t ∧ HaltsWith .stackUnderflow (some 0x00EE) s t)

/-- R106: when a CALL at p pushed without error, a RET that pops that entry, in whatever state it executes, leaves
PC = p + 2. -/
def Obligations.RetReturnsBehindItsCall : Prop :=
  ∀ (s t u w : State) (nnn : Addr) (j : Fin 16), exec (.call nnn) s = .next t → t.Healthy → s.sp.val = j.val →
    u.sp = t.sp → u.stack[j.val] = t.stack[j.val] → exec .ret u = .next w → w.pc = s.pc + 2

/-! ### Skips (41_skip.md, 45_keypad.md) -/

/-- R120 to R124: the four comparing skips, and SKP and SKNP where Vx names a key, set PC to PC + 4 when their condition
holds and to PC + 2 otherwise, and change nothing else. -/
def Obligations.RegisterSkips : Prop :=
  ∀ (s : State) (x y : Reg) (kk : Byte),
    (exec (.seImm x kk) s = .next { s with pc := if s.reg x = kk then s.pc + 4 else s.pc + 2 }) ∧
    (exec (.sneImm x kk) s = .next { s with pc := if s.reg x ≠ kk then s.pc + 4 else s.pc + 2 }) ∧
    (exec (.seReg x y) s = .next { s with pc := if s.reg x = s.reg y then s.pc + 4 else s.pc + 2 }) ∧
    (exec (.sneReg x y) s = .next { s with pc := if s.reg x ≠ s.reg y then s.pc + 4 else s.pc + 2 }) ∧
    (∀ k : Key, (s.reg x).toNat = k.val →
      exec (.skp x) s = .next { s with pc := if s.key[k.val] = true then s.pc + 4 else s.pc + 2 } ∧
      exec (.sknp x) s = .next { s with pc := if s.key[k.val] = false then s.pc + 4 else s.pc + 2 })

/-- R210, R211 and R216: SKP and SKNP skip on the state of the key Vx names, and change nothing else; a Vx above 0x0F
raises BadKey with the instruction's own word, and nothing else changes. -/
def Obligations.KeySkipsOrBadKey : Prop :=
  ∀ (s : State) (x : Reg),
    (∀ k : Key, (s.reg x).toNat = k.val →
      exec (.skp x) s = .next { s with pc := if s.key[k.val] = true then s.pc + 4 else s.pc + 2 } ∧
      exec (.sknp x) s = .next { s with pc := if s.key[k.val] = false then s.pc + 4 else s.pc + 2 }) ∧
    ((s.reg x).toNat > 0xF →
      (∃ t, exec (.skp x) s = .next t ∧ HaltsWith .badKey (some (BitVec.ofNat 16 (0xE09E + x.val * 256))) s t) ∧
      (∃ t, exec (.sknp x) s = .next t ∧ HaltsWith .badKey (some (BitVec.ofNat 16 (0xE0A1 + x.val * 256))) s t))

/-! ### Register load and ALU (42_alu.md) -/

/-- R142, R143 and R144: Vx becomes kk, Vx + kk mod 256, or Vy; VF is not a flag of these. -/
def Obligations.LoadAndImmediateAdd : Prop :=
  ∀ (s : State) (x y : Reg) (kk : Byte),
    (∃ t, exec (.ldImm x kk) s = .next t ∧ WritesReg x kk s t) ∧
    (∃ t b, exec (.addImm x kk) s = .next t ∧ b.toNat = ((s.reg x).toNat + kk.toNat) % 256 ∧ WritesReg x b s t) ∧
    (∃ t, exec (.ldReg x y) s = .next t ∧ WritesReg x (s.reg y) s t)

/-- R145, R146 and R147, bit by bit; VF is not a flag of these. -/
def Obligations.BitwiseOperations : Prop :=
  ∀ (s : State) (x y : Reg),
    (∃ t b, exec (.orReg x y) s = .next t ∧ WritesReg x b s t ∧
      ∀ k, b.getLsbD k = ((s.reg x).getLsbD k || (s.reg y).getLsbD k)) ∧
    (∃ t b, exec (.andReg x y) s = .next t ∧ WritesReg x b s t ∧
      ∀ k, b.getLsbD k = ((s.reg x).getLsbD k && (s.reg y).getLsbD k)) ∧
    (∃ t b, exec (.xorReg x y) s = .next t ∧ WritesReg x b s t ∧
      ∀ k, b.getLsbD k = ((s.reg x).getLsbD k ^^ (s.reg y).getLsbD k))

/-- R148, with the flag order of R141: the sum mod 256 to Vx, then VF = 1 iff the sum exceeds 255. -/
def Obligations.AddSetsCarry : Prop :=
  ∀ (s : State) (x y : Reg), ∃ t b, exec (.addReg x y) s = .next t ∧
    b.toNat = ((s.reg x).toNat + (s.reg y).toNat) % 256 ∧
    WritesRegThenFlag x b (if (s.reg x).toNat + (s.reg y).toNat > 255 then 1 else 0) s t

/-- R149 and R151, with the flag order of R141: the difference mod 256, then VF = 1 iff the minuend is strictly greater. -/
def Obligations.SubtractSetsStrictlyGreater : Prop :=
  ∀ (s : State) (x y : Reg),
    (∃ t b, exec (.sub x y) s = .next t ∧
      (b.toNat : Int) = (((s.reg x).toNat : Int) - ((s.reg y).toNat : Int)) % 256 ∧
      WritesRegThenFlag x b (if (s.reg x).toNat > (s.reg y).toNat then 1 else 0) s t) ∧
    (∃ t b, exec (.subn x y) s = .next t ∧
      (b.toNat : Int) = (((s.reg y).toNat : Int) - ((s.reg x).toNat : Int)) % 256 ∧
      WritesRegThenFlag x b (if (s.reg y).toNat > (s.reg x).toNat then 1 else 0) s t)

/-- R150 and R152 to R155, with the flag order of R141: the source is Vx under InPlace and Vy under FromVy; Vx gets it
shifted by one bit, then VF gets the bit shifted out of the source. -/
def Obligations.ShiftsCaptureTheBitShiftedOut : Prop :=
  ∀ (s : State) (x y : Reg) (src : Byte),
    (s.cfg.shiftQuirk = .inPlace → src = s.reg x) → (s.cfg.shiftQuirk = .fromVy → src = s.reg y) →
    (∃ t b, exec (.shr x y) s = .next t ∧ b.toNat = src.toNat / 2 ∧
      WritesRegThenFlag x b (if src.toNat % 2 = 1 then 1 else 0) s t) ∧
    (∃ t b, exec (.shl x y) s = .next t ∧ b.toNat = src.toNat * 2 % 256 ∧
      WritesRegThenFlag x b (if src.toNat ≥ 128 then 1 else 0) s t)

/-- R22: VF changes only under the seven flag writers, or as the ordinary destination register of another instruction. -/
def Obligations.OnlyFlagWritersAndDestinationsChangeVF : Prop :=
  ∀ (i : Instr) (s t : State), exec i s = .next t → t.reg vF ≠ s.reg vF →
    (∃ x y, i = .addReg x y ∨ i = .sub x y ∨ i = .shr x y ∨ i = .subn x y ∨ i = .shl x y) ∨
    (∃ x, i = .addI x) ∨ (∃ x y n, i = .drw x y n) ∨
    (∃ kk, i = .ldImm vF kk ∨ i = .addImm vF kk ∨ i = .rnd vF kk) ∨
    (∃ y, i = .ldReg vF y ∨ i = .orReg vF y ∨ i = .andReg vF y ∨ i = .xorReg vF y) ∨
    i = .ldVxDt vF ∨ i = .ldLoad vF

/-! ### Address register and random (43_address_random.md) -/

/-- R170, R171 and R172: I becomes nnn; I + Vx mod 2^16 with VF = 1 iff the sum exceeds 0xFFF, Vx read before VF is
written; or 5 times the low nibble of Vx. Nothing else changes. -/
def Obligations.AddressRegisterOperations : Prop :=
  ∀ (s : State) (x : Reg) (nnn : Addr),
    (∃ t, exec (.ldI nnn) s = .next t ∧ t.i.toNat = nnn.toNat ∧ t = { s with i := t.i, pc := s.pc + 2 } ∧
      SameMemory s t) ∧
    (∃ t, exec (.addI x) s = .next t ∧ t.i.toNat = (s.i.toNat + (s.reg x).toNat) % 65536 ∧
      (∀ r, t.reg r = if r = vF then (if s.i.toNat + (s.reg x).toNat > 0xFFF then 1 else 0) else s.reg r) ∧
      t = { s with i := t.i, v := t.v, pc := s.pc + 2 } ∧ SameMemory s t) ∧
    (∃ t, exec (.ldF x) s = .next t ∧ t.i.toNat = 5 * ((s.reg x).toNat % 16) ∧
      t = { s with i := t.i, pc := s.pc + 2 } ∧ SameMemory s t)

/-- R25 and R244: I changes under LD I, ADD I and LD F and under no other instruction. -/
def Obligations.OnlyThreeInstructionsChangeI : Prop :=
  ∀ (i : Instr) (s t : State), exec i s = .next t → t.i ≠ s.i →
    (∃ nnn, i = .ldI nnn) ∨ ∃ x, i = .addI x ∨ i = .ldF x

/-- R173: Vx becomes the draw AND kk, one draw is consumed, and nothing else changes. The draw is the byte the cycle was
given; where it was given none it is free (R13, log 3), and the statement says nothing of it. -/
def Obligations.RndMasksTheDraw : Prop :=
  ∀ (s : State) (x : Reg) (kk : Byte), ∃ t draw, exec (.rnd x kk) s = .next t ∧
    (∀ b, s.rnd = some b → draw = b) ∧
    (∀ r, t.reg r = if r = x then draw &&& kk else s.reg r) ∧
    t = { s with v := t.v, pc := s.pc + 2, draws := s.draws + 1 } ∧ SameMemory s t

/-! ### Display (44_display.md) -/

/-- R190: CLS sets every pixel to 0 and `dirty` to 1 and advances PC; nothing else changes; a cycle that executes it
answers redraw = 1. -/
def Obligations.ClsClearsTheFramebuffer : Prop :=
  ∀ s : State,
    (∃ t, exec .cls s = .next t ∧ (∀ px py, Framebuffer.pixel t.fb px py = false) ∧
      t = { s with fb := t.fb, dirty := true, pc := s.pc + 2 } ∧ SameMemory s t) ∧
    (∀ rnd, s.run = .running → s.nextInstr? = some .cls → cycleResult rnd s = { redraw := true, error := none })

/-- R191 to R194, as a closed form over the whole framebuffer: each pixel is inverted exactly if a set sprite bit falls on
it (bit 7 leftmost, coordinates wrapped), VF = 1 iff some pixel went from 1 to 0, `dirty` = 1, PC + 2, and nothing else
changes. -/
def Obligations.DrwXorsTheSprite : Prop :=
  ∀ (s : State) (x y : Reg) (n : Fin 16), InRange s.i.toNat n.val →
    ∃ t, exec (.drw x y n) s = .next t ∧
      (∀ px py, SpriteCovers s x y n.val px py →
        Framebuffer.pixel t.fb px py = !Framebuffer.pixel s.fb px py) ∧
      (∀ px py, ¬ SpriteCovers s x y n.val px py →
        Framebuffer.pixel t.fb px py = Framebuffer.pixel s.fb px py) ∧
      ((∃ px py, Framebuffer.pixel s.fb px py = true ∧ Framebuffer.pixel t.fb px py = false) → t.reg vF = 1) ∧
      ((¬ ∃ px py, Framebuffer.pixel s.fb px py = true ∧ Framebuffer.pixel t.fb px py = false) → t.reg vF = 0) ∧
      (∀ r, r ≠ vF → t.reg r = s.reg r) ∧
      t = { s with v := t.v, fb := t.fb, dirty := true, pc := s.pc + 2 } ∧ SameMemory s t

/-- R196: when a sprite row lies above 0xFFF, DRW raises OutOfRange with its own word, and nothing else changes. -/
def Obligations.DrwOutOfRangeRaises : Prop :=
  ∀ (s : State) (x y : Reg) (n : Fin 16), 0 < n.val → s.i.toNat + n.val - 1 > 0xFFF →
    ∃ t, exec (.drw x y n) s = .next t ∧
      HaltsWith .outOfRange (some (BitVec.ofNat 16 (0xD000 + x.val * 256 + y.val * 16 + n.val))) s t

/-- R195: DRW with n = 0 changes no pixel, writes VF = 0, sets `dirty` and advances PC by 2, whatever I holds. -/
def Obligations.DrwOfNoRowsDrawsNothing : Prop :=
  ∀ (s : State) (x y : Reg), ∃ t, exec (.drw x y 0) s = .next t ∧ t.fb = s.fb ∧
    (∀ r, t.reg r = if r = vF then 0 else s.reg r) ∧
    t = { s with v := t.v, dirty := true, pc := s.pc + 2 } ∧ SameMemory s t

/-- The XOR law of R197, for a second draw of the same sprite bytes at the same coordinates on the framebuffer the first
one left: the framebuffer returns to its state before the first draw; the first draw gives VF = 0 when every covered pixel
was 0, and the second gives VF = 1 exactly when some covered pixel was 0 before the first (log 17). -/
def Obligations.DrawingTwiceRestoresTheFramebuffer : Prop :=
  ∀ (s t u w : State) (x y : Reg) (n : Fin 16), InRange s.i.toNat n.val → exec (.drw x y n) s = .next t →
    u.fb = t.fb → u.i = s.i → u.reg x = s.reg x → u.reg y = s.reg y →
    (∀ r, r < n.val → u.byte (s.i.toNat + r) = s.byte (s.i.toNat + r)) → exec (.drw x y n) u = .next w →
    w.fb = s.fb ∧
    ((∀ px py, SpriteCovers s x y n.val px py → Framebuffer.pixel s.fb px py = false) → t.reg vF = 0) ∧
    (w.reg vF = 1 ↔ ∃ px py, SpriteCovers s x y n.val px py ∧ Framebuffer.pixel s.fb px py = false)

/-- R197's clause on the second draw as its words stand: VF = 1 whenever the sprite has a set bit. By R191 and R193 it does
not hold where every covered pixel was 1 before the first draw (log 17). -/
def Obligations.SecondDrawAlwaysCollides : Prop :=
  ∀ (s t u w : State) (x y : Reg) (n : Fin 16), InRange s.i.toNat n.val → exec (.drw x y n) s = .next t →
    u.fb = t.fb → u.i = s.i → u.reg x = s.reg x → u.reg y = s.reg y →
    (∀ r, r < n.val → u.byte (s.i.toNat + r) = s.byte (s.i.toNat + r)) → exec (.drw x y n) u = .next w →
    (∃ px py, SpriteCovers s x y n.val px py) → w.reg vF = 1

/-- R41 and R198: no instruction but CLS and DRW changes a pixel, and none but those two sets `dirty`, which none clears
(R37). -/
def Obligations.OnlyClsAndDrwWriteTheFramebuffer : Prop :=
  ∀ (i : Instr) (s t : State), exec i s = .next t → t.fb ≠ s.fb ∨ t.dirty ≠ s.dirty →
    t.dirty = true ∧ (i = .cls ∨ ∃ x y n, i = .drw x y n)

/-! ### Keypad (45_keypad.md) -/

/-- R212: LD Vx, K enters `WaitingForKey(x)`; PC is not advanced and nothing else changes. -/
def Obligations.LdKEntersTheWait : Prop :=
  ∀ (s : State) (x : Reg), ∃ t, exec (.ldK x) s = .next t ∧ t = { s with run := .waitingForKey x } ∧ SameMemory s t

/-- R213 and R214: in `WaitingForKey(x)` a release of any key k clears key[k], writes k to Vx, advances PC by 2 and
resumes; every other key event sets key[k] and changes nothing else. -/
def Obligations.KeyEvents : Prop :=
  ∀ (s : State) (k : Key) (pressed : Bool),
    (∀ x, s.run = .waitingForKey x → pressed = false →
      ∃ t, transact (.keyEvent k pressed) s = .next t ∧ t.run = .running ∧ t.pc = s.pc + 2 ∧
        (∀ r, (t.reg r).toNat = if r = x then k.val else (s.reg r).toNat) ∧
        (∀ j : Key, t.key[j.val] = if j = k then false else s.key[j.val]) ∧
        t = { s with v := t.v, pc := t.pc, key := t.key, run := t.run } ∧ SameMemory s t) ∧
    ((∀ x, s.run = .waitingForKey x → pressed = true) →
      ∃ t, transact (.keyEvent k pressed) s = .next t ∧
        (∀ j : Key, t.key[j.val] = if j = k then pressed else s.key[j.val]) ∧
        t = { s with key := t.key } ∧ SameMemory s t)

/-! ### Timers (46_timers.md, 60_exceptions.md) -/

/-- R230, R231 and R232: Vx becomes DT; DT becomes Vx; ST becomes Vx; nothing else changes. -/
def Obligations.TimerAccess : Prop :=
  ∀ (s : State) (x : Reg),
    (∃ t, exec (.ldVxDt x) s = .next t ∧ WritesReg x s.dt s t) ∧
    (∃ t, exec (.ldDt x) s = .next t ∧ t = { s with dt := s.reg x, pc := s.pc + 2 } ∧ SameMemory s t) ∧
    (∃ t, exec (.ldSt x) s = .next t ∧ t = { s with st := s.reg x, pc := s.pc + 2 } ∧ SameMemory s t)

/-- R276 and R277: in every run state a tick takes 1 from each nonzero timer, leaves a zero timer at 0, and changes
nothing else. -/
def Obligations.TickCountsDown : Prop :=
  ∀ s : State, ∃ t, transact .tick s = .next t ∧ t.dt.toNat = s.dt.toNat - 1 ∧ t.st.toNat = s.st.toNat - 1 ∧
    t = { s with dt := t.dt, st := t.st } ∧ SameMemory s t

/-- Over any schedule in which no `reset` is delivered and no cycle executes LD DT, Vx, the delay timer goes down by the
number of ticks, stopping at 0, whatever cycles, key events, reads and acknowledgements stand between them (R276, R280,
R282; the source's vector S9 is one instance). -/
def Obligations.DelayTimerCountsTheTicksOfASchedule : Prop :=
  ∀ (ts : List Transaction) (s t : State), NeverWritesDt ts s → transactAll ts s = .next t →
    t.dt.toNat = s.dt.toNat - tickCount ts

/-! ### Memory transfer and memory (47_memory_transfer.md, 20_memory.md) -/

/-- R240: hundreds, tens and ones of Vx at I, I + 1 and I + 2, PC + 2, every other byte as before, and nothing else
changes; when I + 2 exceeds 0xFFF, computed without wrap, OutOfRange with the instruction's own word, and nothing else
changes. (The memory is in canonical form before: log 7.) -/
def Obligations.BcdStoresDecimalDigits : Prop :=
  ∀ (s : State) (x : Reg), Memory.wf s.cfg s.mem = true →
    (s.i.toNat + 2 ≤ 0xFFF →
      ∃ t, exec (.ldB x) s = .next t ∧
        (t.byte s.i.toNat).toNat = (s.reg x).toNat / 100 ∧
        (t.byte (s.i.toNat + 1)).toNat = (s.reg x).toNat / 10 % 10 ∧
        (t.byte (s.i.toNat + 2)).toNat = (s.reg x).toNat % 10 ∧
        SameMemoryOutside s.i.toNat 3 s t ∧ t = { s with mem := t.mem, pc := s.pc + 2 }) ∧
    (s.i.toNat + 2 > 0xFFF →
      ∃ t, exec (.ldB x) s = .next t ∧ HaltsWith .outOfRange (some (BitVec.ofNat 16 (0xF033 + x.val * 256))) s t)

/-- R241: V0 to Vx at I to I + x, PC + 2, every other byte as before, I and everything else unchanged (R244); when I + x
exceeds 0xFFF, computed without wrap, OutOfRange with the instruction's own word, and nothing else changes. (The memory is
in canonical form before: log 7.) -/
def Obligations.StoreCopiesRegistersToMemory : Prop :=
  ∀ (s : State) (x : Reg), Memory.wf s.cfg s.mem = true →
    (s.i.toNat + x.val ≤ 0xFFF →
      ∃ t, exec (.ldStore x) s = .next t ∧
        (∀ r : Reg, r.val ≤ x.val → t.byte (s.i.toNat + r.val) = s.reg r) ∧
        SameMemoryOutside s.i.toNat (x.val + 1) s t ∧ t = { s with mem := t.mem, pc := s.pc + 2 }) ∧
    (s.i.toNat + x.val > 0xFFF →
      ∃ t, exec (.ldStore x) s = .next t ∧ HaltsWith .outOfRange (some (BitVec.ofNat 16 (0xF055 + x.val * 256))) s t)

/-- R242: V0 to Vx from I to I + x, the other registers as before, PC + 2, I, memory and everything else unchanged (R244);
when I + x exceeds 0xFFF, computed without wrap, OutOfRange with the instruction's own word, and nothing else changes. -/
def Obligations.LoadCopiesMemoryToRegisters : Prop :=
  ∀ (s : State) (x : Reg),
    (s.i.toNat + x.val ≤ 0xFFF →
      ∃ t, exec (.ldLoad x) s = .next t ∧
        (∀ r : Reg, t.reg r = if r.val ≤ x.val then s.byte (s.i.toNat + r.val) else s.reg r) ∧
        t = { s with v := t.v, pc := s.pc + 2 } ∧ SameMemory s t) ∧
    (s.i.toNat + x.val > 0xFFF →
      ∃ t, exec (.ldLoad x) s = .next t ∧ HaltsWith .outOfRange (some (BitVec.ofNat 16 (0xF065 + x.val * 256))) s t)

/-- R65 and R47: no instruction but Fx33 and Fx55 changes a byte of memory, and those change only bytes of the range they
access through I, inside the 4096 bytes. -/
def Obligations.OnlyTwoInstructionsWriteMemory : Prop :=
  ∀ (i : Instr) (s t : State) (a : Nat), Memory.wf s.cfg s.mem = true → exec i s = .next t → t.byte a ≠ s.byte a →
    ∃ x n, (i = .ldB x ∨ i = .ldStore x) ∧ dataLength i = some n ∧ s.i.toNat ≤ a ∧ a < s.i.toNat + n ∧ a ≤ 0xFFF

/-- R74 and R311, for Fx33 and Fx55: when one of them has stored without error, a fetch anywhere from that memory, as soon
as the very next cycle, gives the word of the bytes as they are after the store, whether both, one or none of its two bytes
were stored. -/
def Obligations.StoredCodeIsFetched : Prop :=
  ∀ (s t u : State) (x : Reg) (hi lo : Byte), Memory.wf s.cfg s.mem = true → t.Healthy → u.mem = t.mem → u.cfg = t.cfg →
    u.pc.toNat ≤ 0xFFE → (u.cfg.pcCheck = .strict → u.pc.toNat % 2 = 0 ∧ 0x200 ≤ u.pc.toNat) →
    (exec (.ldStore x) s = .next t → ByteAfterStore x s u.pc.toNat hi → ByteAfterStore x s (u.pc.toNat + 1) lo →
      fetch u = .ok (BitVec.ofNat 16 (hi.toNat * 256 + lo.toNat))) ∧
    (exec (.ldB x) s = .next t → ByteAfterBcd x s u.pc.toNat hi → ByteAfterBcd x s (u.pc.toNat + 1) lo →
      fetch u = .ok (BitVec.ofNat 16 (hi.toNat * 256 + lo.toNat)))

/-- The canonical form makes equal memories equal data: two memories in that form that read the same at every address are
the same list (log 7). -/
def Obligations.CanonicalMemoriesAreEqual : Prop :=
  ∀ (c : Config) (m₁ m₂ : Memory), Memory.wf c m₁ = true → Memory.wf c m₂ = true →
    (∀ a, Memory.read c m₁ a = Memory.read c m₂ a) → m₁ = m₂

/-! ### Reset, load and the host (70_reset_and_hazards.md, 60_exceptions.md) -/

/-- R300 and R302: `reset` is accepted in every state and leaves every field at its reset value, FONT_ROM at 0x000-0x04F
and 0 elsewhere in memory; so has the state after power-on. `reset` keeps the parameters, which are fixed for the lifetime
of the instance (R44; that it does so is the model's reading, log 9). -/
def Obligations.ResetSetsEveryField : Prop :=
  (∀ s : State, ∃ t, transact .reset s = .next t ∧ t.cfg = s.cfg ∧ HasResetValues t) ∧ HasResetValues State.reset

/-- R305 and R306: before the first cycle a running block takes an image of at most 3584 bytes, byte j at 0x200 + j, every
other byte as before and nothing else changed, and answers no error; a longer image halts it with (ProgramTooLarge, 0x200,
none), nothing else changes, and the answer is that record (R261; answers are functions of the state before, log 15); after
the first cycle a load is refused; a `reset` opens the window again (R302). The model's choice (log 4): the window is the
field `started`, and every load inside it is accepted, a second one too. -/
def Obligations.LoadTakesAnImageBeforeTheFirstCycle : Prop :=
  ∀ (s : State) (image : List Byte), Memory.wf s.cfg s.mem = true →
    (s.started = false → s.run = .running → image.length ≤ 3584 →
      respond (.load image) s = .loadDone none ∧
      ∃ t, transact (.load image) s = .next t ∧
        (∀ j, (h : j < image.length) → t.byte (0x200 + j) = image[j]) ∧
        SameMemoryOutside 0x200 image.length s t ∧ t = { s with mem := t.mem }) ∧
    (s.started = false → s.run = .running → image.length > 3584 →
      respond (.load image) s = .loadDone (some { kind := .programTooLarge, pc := 0x200, opcode := none }) ∧
      ∃ t, transact (.load image) s = .next t ∧
        t = { s with run := .halted { kind := .programTooLarge, pc := 0x200, opcode := none } }) ∧
    (s.started = true → transact (.load image) s = .refused .loadAfterFirstCycle) ∧
    (∃ t, transact .reset s = .next t ∧ t.started = false)

/-- R46: what the host does besides `cycle`, `reset` and `load` leaves registers, I, PC, stack, SP and memory alone, but
for the key release that completes LD Vx, K; only a tick touches the timers, and only an acknowledgement `dirty` (R276).
An acknowledgement sets `dirty` to 0 and changes nothing else (R275); a framebuffer read answers the pixel and changes
nothing (R273; answers are functions of the state before, log 15). -/
def Obligations.HostNeverMutatesTheCore : Prop :=
  (∀ (s t : State) (tr : Transaction), transact tr s = .next t →
    (∀ rnd, tr ≠ .cycle rnd) → tr ≠ .reset → (∀ image, tr ≠ .load image) →
    (∀ x k, s.run = .waitingForKey x → tr ≠ .keyEvent k false) →
    t.v = s.v ∧ t.i = s.i ∧ t.pc = s.pc ∧ t.stack = s.stack ∧ t.sp = s.sp ∧ t.fb = s.fb ∧ t.run = s.run ∧
    SameMemory s t ∧ (tr ≠ .tick → t.dt = s.dt ∧ t.st = s.st) ∧ (tr ≠ .ackRedraw → t.dirty = s.dirty)) ∧
  (∀ s : State, transact .ackRedraw s = .next { s with dirty := false }) ∧
  (∀ (s : State) (px : Fin 64) (py : Fin 32), transact (.fbRead px py) s = .next s ∧
    respond (.fbRead px py) s = .pixelRead (Framebuffer.pixel s.fb px py))

/-- No instruction changes a parameter (R44) or a key flag (R42), and none but CALL and RET changes SP or a stack entry (R31).
No instruction changes what the environment will do next (R280) or the `load` window (R305); the fields `pending` and
`started` that hold these are the model's choice (logs 2 and 4). -/
def Obligations.InstructionsLeaveTheHostSideAlone : Prop :=
  ∀ (i : Instr) (s t : State), exec i s = .next t →
    t.cfg = s.cfg ∧ t.key = s.key ∧ t.pending = s.pending ∧ t.started = s.started ∧
    ((t.sp ≠ s.sp ∨ t.stack ≠ s.stack) → i = .ret ∨ ∃ nnn, i = .call nnn)

/-! ### What a program cannot observe -/

/-- R33, R37 and R48: no instruction reads ST or `dirty`. Two states that differ only in these go, by any instruction, to
two states that differ only in these. -/
def Obligations.ProgramsCannotObserveSoundTimerOrDirty : Prop :=
  ∀ (i : Instr) (s t : State) (st : Byte) (dirty : Bool), exec i s = .next t →
    ∃ st' dirty', exec i { s with st := st, dirty := dirty } = .next { t with st := st', dirty := dirty' }

/-- R32 and R48: the stack entries at or above SP cannot be observed. Two states that agree but for such entries go, by
any instruction, to two states that agree but for such entries. -/
def Obligations.StaleStackEntriesAreUnobservable : Prop :=
  ∀ (i : Instr) (s t : State) (stack : Vector Word 16), (∀ j : Fin 16, j.val < s.sp.val → stack[j.val] = s.stack[j.val]) →
    exec i s = .next t →
    ∃ stack' : Vector Word 16, exec i { s with stack := stack } = .next { t with stack := stack' } ∧
      ∀ j : Fin 16, j.val < t.sp.val → stack'[j.val] = t.stack[j.val]

/-- What the environment does next is its own, not the block's (R280): a transaction from two states that differ only in what
is pending answers two states that differ only there, and leaves it as it is. The field `pending` is the model's choice
(log 2), and so is that a `reset` keeps it (log 9). -/
def Obligations.TransactionsIgnoreTheSchedule : Prop :=
  ∀ (tr : Transaction) (s t : State) (ts : List Transaction), transact tr s = .next t →
    transact tr { s with pending := ts } = .next { t with pending := ts } ∧ t.pending = s.pending
end

