-- ==== Sys2Proof/Laws/State.lean ====
section
/-! SUPPORT. One lemma per field per named update of State, each true by rfl. -/

namespace Sys2Proof.Machine

/-! ### setReg -/

@[simp] theorem State.setReg_v (s : State) (x : Reg) (b : Byte) : (s.setReg x b).v = s.v.set x.val b x.isLt := rfl
@[simp] theorem State.setReg_i (s : State) (x : Reg) (b : Byte) : (s.setReg x b).i = s.i := rfl
@[simp] theorem State.setReg_pc (s : State) (x : Reg) (b : Byte) : (s.setReg x b).pc = s.pc := rfl
@[simp] theorem State.setReg_stack (s : State) (x : Reg) (b : Byte) : (s.setReg x b).stack = s.stack := rfl
@[simp] theorem State.setReg_sp (s : State) (x : Reg) (b : Byte) : (s.setReg x b).sp = s.sp := rfl
@[simp] theorem State.setReg_dt (s : State) (x : Reg) (b : Byte) : (s.setReg x b).dt = s.dt := rfl
@[simp] theorem State.setReg_st (s : State) (x : Reg) (b : Byte) : (s.setReg x b).st = s.st := rfl
@[simp] theorem State.setReg_run (s : State) (x : Reg) (b : Byte) : (s.setReg x b).run = s.run := rfl
@[simp] theorem State.setReg_dirty (s : State) (x : Reg) (b : Byte) : (s.setReg x b).dirty = s.dirty := rfl
@[simp] theorem State.setReg_fb (s : State) (x : Reg) (b : Byte) : (s.setReg x b).fb = s.fb := rfl
@[simp] theorem State.setReg_key (s : State) (x : Reg) (b : Byte) : (s.setReg x b).key = s.key := rfl
@[simp] theorem State.setReg_mem (s : State) (x : Reg) (b : Byte) : (s.setReg x b).mem = s.mem := rfl
@[simp] theorem State.setReg_cfg (s : State) (x : Reg) (b : Byte) : (s.setReg x b).cfg = s.cfg := rfl
@[simp] theorem State.setReg_started (s : State) (x : Reg) (b : Byte) : (s.setReg x b).started = s.started := rfl
@[simp] theorem State.setReg_pending (s : State) (x : Reg) (b : Byte) : (s.setReg x b).pending = s.pending := rfl
@[simp] theorem State.setReg_draws (s : State) (x : Reg) (b : Byte) : (s.setReg x b).draws = s.draws := rfl
@[simp] theorem State.setReg_rnd (s : State) (x : Reg) (b : Byte) : (s.setReg x b).rnd = s.rnd := rfl

/-! ### setRegThenFlag -/

@[simp] theorem State.setRegThenFlag_i (s : State) (x : Reg) (b f : Byte) : (s.setRegThenFlag x b f).i = s.i := rfl
@[simp] theorem State.setRegThenFlag_pc (s : State) (x : Reg) (b f : Byte) : (s.setRegThenFlag x b f).pc = s.pc := rfl
@[simp] theorem State.setRegThenFlag_stack (s : State) (x : Reg) (b f : Byte) : (s.setRegThenFlag x b f).stack = s.stack := rfl
@[simp] theorem State.setRegThenFlag_sp (s : State) (x : Reg) (b f : Byte) : (s.setRegThenFlag x b f).sp = s.sp := rfl
@[simp] theorem State.setRegThenFlag_dt (s : State) (x : Reg) (b f : Byte) : (s.setRegThenFlag x b f).dt = s.dt := rfl
@[simp] theorem State.setRegThenFlag_st (s : State) (x : Reg) (b f : Byte) : (s.setRegThenFlag x b f).st = s.st := rfl
@[simp] theorem State.setRegThenFlag_run (s : State) (x : Reg) (b f : Byte) : (s.setRegThenFlag x b f).run = s.run := rfl
@[simp] theorem State.setRegThenFlag_dirty (s : State) (x : Reg) (b f : Byte) : (s.setRegThenFlag x b f).dirty = s.dirty := rfl
@[simp] theorem State.setRegThenFlag_fb (s : State) (x : Reg) (b f : Byte) : (s.setRegThenFlag x b f).fb = s.fb := rfl
@[simp] theorem State.setRegThenFlag_key (s : State) (x : Reg) (b f : Byte) : (s.setRegThenFlag x b f).key = s.key := rfl
@[simp] theorem State.setRegThenFlag_mem (s : State) (x : Reg) (b f : Byte) : (s.setRegThenFlag x b f).mem = s.mem := rfl
@[simp] theorem State.setRegThenFlag_cfg (s : State) (x : Reg) (b f : Byte) : (s.setRegThenFlag x b f).cfg = s.cfg := rfl
@[simp] theorem State.setRegThenFlag_started (s : State) (x : Reg) (b f : Byte) : (s.setRegThenFlag x b f).started = s.started := rfl
@[simp] theorem State.setRegThenFlag_pending (s : State) (x : Reg) (b f : Byte) : (s.setRegThenFlag x b f).pending = s.pending := rfl
@[simp] theorem State.setRegThenFlag_draws (s : State) (x : Reg) (b f : Byte) : (s.setRegThenFlag x b f).draws = s.draws := rfl
@[simp] theorem State.setRegThenFlag_rnd (s : State) (x : Reg) (b f : Byte) : (s.setRegThenFlag x b f).rnd = s.rnd := rfl

/-! ### advance -/

@[simp] theorem State.advance_v (s : State) : (s.advance).v = s.v := rfl
@[simp] theorem State.advance_i (s : State) : (s.advance).i = s.i := rfl
@[simp] theorem State.advance_pc (s : State) : (s.advance).pc = s.pc + 2 := rfl
@[simp] theorem State.advance_stack (s : State) : (s.advance).stack = s.stack := rfl
@[simp] theorem State.advance_sp (s : State) : (s.advance).sp = s.sp := rfl
@[simp] theorem State.advance_dt (s : State) : (s.advance).dt = s.dt := rfl
@[simp] theorem State.advance_st (s : State) : (s.advance).st = s.st := rfl
@[simp] theorem State.advance_run (s : State) : (s.advance).run = s.run := rfl
@[simp] theorem State.advance_dirty (s : State) : (s.advance).dirty = s.dirty := rfl
@[simp] theorem State.advance_fb (s : State) : (s.advance).fb = s.fb := rfl
@[simp] theorem State.advance_key (s : State) : (s.advance).key = s.key := rfl
@[simp] theorem State.advance_mem (s : State) : (s.advance).mem = s.mem := rfl
@[simp] theorem State.advance_cfg (s : State) : (s.advance).cfg = s.cfg := rfl
@[simp] theorem State.advance_started (s : State) : (s.advance).started = s.started := rfl
@[simp] theorem State.advance_pending (s : State) : (s.advance).pending = s.pending := rfl
@[simp] theorem State.advance_draws (s : State) : (s.advance).draws = s.draws := rfl
@[simp] theorem State.advance_rnd (s : State) : (s.advance).rnd = s.rnd := rfl

/-! ### skipIf -/

@[simp] theorem State.skipIf_v (s : State) (c : Bool) : (s.skipIf c).v = s.v := rfl
@[simp] theorem State.skipIf_i (s : State) (c : Bool) : (s.skipIf c).i = s.i := rfl
@[simp] theorem State.skipIf_pc (s : State) (c : Bool) : (s.skipIf c).pc = s.pc + (if c then 4 else 2) := rfl
@[simp] theorem State.skipIf_stack (s : State) (c : Bool) : (s.skipIf c).stack = s.stack := rfl
@[simp] theorem State.skipIf_sp (s : State) (c : Bool) : (s.skipIf c).sp = s.sp := rfl
@[simp] theorem State.skipIf_dt (s : State) (c : Bool) : (s.skipIf c).dt = s.dt := rfl
@[simp] theorem State.skipIf_st (s : State) (c : Bool) : (s.skipIf c).st = s.st := rfl
@[simp] theorem State.skipIf_run (s : State) (c : Bool) : (s.skipIf c).run = s.run := rfl
@[simp] theorem State.skipIf_dirty (s : State) (c : Bool) : (s.skipIf c).dirty = s.dirty := rfl
@[simp] theorem State.skipIf_fb (s : State) (c : Bool) : (s.skipIf c).fb = s.fb := rfl
@[simp] theorem State.skipIf_key (s : State) (c : Bool) : (s.skipIf c).key = s.key := rfl
@[simp] theorem State.skipIf_mem (s : State) (c : Bool) : (s.skipIf c).mem = s.mem := rfl
@[simp] theorem State.skipIf_cfg (s : State) (c : Bool) : (s.skipIf c).cfg = s.cfg := rfl
@[simp] theorem State.skipIf_started (s : State) (c : Bool) : (s.skipIf c).started = s.started := rfl
@[simp] theorem State.skipIf_pending (s : State) (c : Bool) : (s.skipIf c).pending = s.pending := rfl
@[simp] theorem State.skipIf_draws (s : State) (c : Bool) : (s.skipIf c).draws = s.draws := rfl
@[simp] theorem State.skipIf_rnd (s : State) (c : Bool) : (s.skipIf c).rnd = s.rnd := rfl

/-! ### store -/

@[simp] theorem State.store_v (s : State) (a : Nat) (bs : List Byte) : (s.store a bs).v = s.v := rfl
@[simp] theorem State.store_i (s : State) (a : Nat) (bs : List Byte) : (s.store a bs).i = s.i := rfl
@[simp] theorem State.store_pc (s : State) (a : Nat) (bs : List Byte) : (s.store a bs).pc = s.pc := rfl
@[simp] theorem State.store_stack (s : State) (a : Nat) (bs : List Byte) : (s.store a bs).stack = s.stack := rfl
@[simp] theorem State.store_sp (s : State) (a : Nat) (bs : List Byte) : (s.store a bs).sp = s.sp := rfl
@[simp] theorem State.store_dt (s : State) (a : Nat) (bs : List Byte) : (s.store a bs).dt = s.dt := rfl
@[simp] theorem State.store_st (s : State) (a : Nat) (bs : List Byte) : (s.store a bs).st = s.st := rfl
@[simp] theorem State.store_run (s : State) (a : Nat) (bs : List Byte) : (s.store a bs).run = s.run := rfl
@[simp] theorem State.store_dirty (s : State) (a : Nat) (bs : List Byte) : (s.store a bs).dirty = s.dirty := rfl
@[simp] theorem State.store_fb (s : State) (a : Nat) (bs : List Byte) : (s.store a bs).fb = s.fb := rfl
@[simp] theorem State.store_key (s : State) (a : Nat) (bs : List Byte) : (s.store a bs).key = s.key := rfl
@[simp] theorem State.store_mem (s : State) (a : Nat) (bs : List Byte) : (s.store a bs).mem = Memory.writeBytes s.cfg s.mem a bs := rfl
@[simp] theorem State.store_cfg (s : State) (a : Nat) (bs : List Byte) : (s.store a bs).cfg = s.cfg := rfl
@[simp] theorem State.store_started (s : State) (a : Nat) (bs : List Byte) : (s.store a bs).started = s.started := rfl
@[simp] theorem State.store_pending (s : State) (a : Nat) (bs : List Byte) : (s.store a bs).pending = s.pending := rfl
@[simp] theorem State.store_draws (s : State) (a : Nat) (bs : List Byte) : (s.store a bs).draws = s.draws := rfl
@[simp] theorem State.store_rnd (s : State) (a : Nat) (bs : List Byte) : (s.store a bs).rnd = s.rnd := rfl

/-! ### halt -/

@[simp] theorem State.halt_v (s : State) (k : ErrorKind) (op : Option Word) : (s.halt k op).v = s.v := rfl
@[simp] theorem State.halt_i (s : State) (k : ErrorKind) (op : Option Word) : (s.halt k op).i = s.i := rfl
@[simp] theorem State.halt_pc (s : State) (k : ErrorKind) (op : Option Word) : (s.halt k op).pc = s.pc := rfl
@[simp] theorem State.halt_stack (s : State) (k : ErrorKind) (op : Option Word) : (s.halt k op).stack = s.stack := rfl
@[simp] theorem State.halt_sp (s : State) (k : ErrorKind) (op : Option Word) : (s.halt k op).sp = s.sp := rfl
@[simp] theorem State.halt_dt (s : State) (k : ErrorKind) (op : Option Word) : (s.halt k op).dt = s.dt := rfl
@[simp] theorem State.halt_st (s : State) (k : ErrorKind) (op : Option Word) : (s.halt k op).st = s.st := rfl
@[simp] theorem State.halt_run (s : State) (k : ErrorKind) (op : Option Word) : (s.halt k op).run = RunState.halted ⟨k, s.pc, op⟩ := rfl
@[simp] theorem State.halt_dirty (s : State) (k : ErrorKind) (op : Option Word) : (s.halt k op).dirty = s.dirty := rfl
@[simp] theorem State.halt_fb (s : State) (k : ErrorKind) (op : Option Word) : (s.halt k op).fb = s.fb := rfl
@[simp] theorem State.halt_key (s : State) (k : ErrorKind) (op : Option Word) : (s.halt k op).key = s.key := rfl
@[simp] theorem State.halt_mem (s : State) (k : ErrorKind) (op : Option Word) : (s.halt k op).mem = s.mem := rfl
@[simp] theorem State.halt_cfg (s : State) (k : ErrorKind) (op : Option Word) : (s.halt k op).cfg = s.cfg := rfl
@[simp] theorem State.halt_started (s : State) (k : ErrorKind) (op : Option Word) : (s.halt k op).started = s.started := rfl
@[simp] theorem State.halt_pending (s : State) (k : ErrorKind) (op : Option Word) : (s.halt k op).pending = s.pending := rfl
@[simp] theorem State.halt_draws (s : State) (k : ErrorKind) (op : Option Word) : (s.halt k op).draws = s.draws := rfl
@[simp] theorem State.halt_rnd (s : State) (k : ErrorKind) (op : Option Word) : (s.halt k op).rnd = s.rnd := rfl

/-! ### consumeDraw -/

@[simp] theorem State.consumeDraw_v (s : State) : (s.consumeDraw).v = s.v := rfl
@[simp] theorem State.consumeDraw_i (s : State) : (s.consumeDraw).i = s.i := rfl
@[simp] theorem State.consumeDraw_pc (s : State) : (s.consumeDraw).pc = s.pc := rfl
@[simp] theorem State.consumeDraw_stack (s : State) : (s.consumeDraw).stack = s.stack := rfl
@[simp] theorem State.consumeDraw_sp (s : State) : (s.consumeDraw).sp = s.sp := rfl
@[simp] theorem State.consumeDraw_dt (s : State) : (s.consumeDraw).dt = s.dt := rfl
@[simp] theorem State.consumeDraw_st (s : State) : (s.consumeDraw).st = s.st := rfl
@[simp] theorem State.consumeDraw_run (s : State) : (s.consumeDraw).run = s.run := rfl
@[simp] theorem State.consumeDraw_dirty (s : State) : (s.consumeDraw).dirty = s.dirty := rfl
@[simp] theorem State.consumeDraw_fb (s : State) : (s.consumeDraw).fb = s.fb := rfl
@[simp] theorem State.consumeDraw_key (s : State) : (s.consumeDraw).key = s.key := rfl
@[simp] theorem State.consumeDraw_mem (s : State) : (s.consumeDraw).mem = s.mem := rfl
@[simp] theorem State.consumeDraw_cfg (s : State) : (s.consumeDraw).cfg = s.cfg := rfl
@[simp] theorem State.consumeDraw_started (s : State) : (s.consumeDraw).started = s.started := rfl
@[simp] theorem State.consumeDraw_pending (s : State) : (s.consumeDraw).pending = s.pending := rfl
@[simp] theorem State.consumeDraw_draws (s : State) : (s.consumeDraw).draws = s.draws + 1 := rfl
@[simp] theorem State.consumeDraw_rnd (s : State) : (s.consumeDraw).rnd = s.rnd := rfl

/-! ### beginCycle -/

@[simp] theorem State.beginCycle_v (s : State) (r : Option Byte) : (s.beginCycle r).v = s.v := rfl
@[simp] theorem State.beginCycle_i (s : State) (r : Option Byte) : (s.beginCycle r).i = s.i := rfl
@[simp] theorem State.beginCycle_pc (s : State) (r : Option Byte) : (s.beginCycle r).pc = s.pc := rfl
@[simp] theorem State.beginCycle_stack (s : State) (r : Option Byte) : (s.beginCycle r).stack = s.stack := rfl
@[simp] theorem State.beginCycle_sp (s : State) (r : Option Byte) : (s.beginCycle r).sp = s.sp := rfl
@[simp] theorem State.beginCycle_dt (s : State) (r : Option Byte) : (s.beginCycle r).dt = s.dt := rfl
@[simp] theorem State.beginCycle_st (s : State) (r : Option Byte) : (s.beginCycle r).st = s.st := rfl
@[simp] theorem State.beginCycle_run (s : State) (r : Option Byte) : (s.beginCycle r).run = s.run := rfl
@[simp] theorem State.beginCycle_dirty (s : State) (r : Option Byte) : (s.beginCycle r).dirty = s.dirty := rfl
@[simp] theorem State.beginCycle_fb (s : State) (r : Option Byte) : (s.beginCycle r).fb = s.fb := rfl
@[simp] theorem State.beginCycle_key (s : State) (r : Option Byte) : (s.beginCycle r).key = s.key := rfl
@[simp] theorem State.beginCycle_mem (s : State) (r : Option Byte) : (s.beginCycle r).mem = s.mem := rfl
@[simp] theorem State.beginCycle_cfg (s : State) (r : Option Byte) : (s.beginCycle r).cfg = s.cfg := rfl
@[simp] theorem State.beginCycle_started (s : State) (r : Option Byte) : (s.beginCycle r).started = true := rfl
@[simp] theorem State.beginCycle_pending (s : State) (r : Option Byte) : (s.beginCycle r).pending = s.pending := rfl
@[simp] theorem State.beginCycle_draws (s : State) (r : Option Byte) : (s.beginCycle r).draws = s.draws := rfl
@[simp] theorem State.beginCycle_rnd (s : State) (r : Option Byte) : (s.beginCycle r).rnd = r := rfl

/-! ### setKey -/

@[simp] theorem State.setKey_v (s : State) (k : Key) (p : Bool) : (s.setKey k p).v = s.v := rfl
@[simp] theorem State.setKey_i (s : State) (k : Key) (p : Bool) : (s.setKey k p).i = s.i := rfl
@[simp] theorem State.setKey_pc (s : State) (k : Key) (p : Bool) : (s.setKey k p).pc = s.pc := rfl
@[simp] theorem State.setKey_stack (s : State) (k : Key) (p : Bool) : (s.setKey k p).stack = s.stack := rfl
@[simp] theorem State.setKey_sp (s : State) (k : Key) (p : Bool) : (s.setKey k p).sp = s.sp := rfl
@[simp] theorem State.setKey_dt (s : State) (k : Key) (p : Bool) : (s.setKey k p).dt = s.dt := rfl
@[simp] theorem State.setKey_st (s : State) (k : Key) (p : Bool) : (s.setKey k p).st = s.st := rfl
@[simp] theorem State.setKey_run (s : State) (k : Key) (p : Bool) : (s.setKey k p).run = s.run := rfl
@[simp] theorem State.setKey_dirty (s : State) (k : Key) (p : Bool) : (s.setKey k p).dirty = s.dirty := rfl
@[simp] theorem State.setKey_fb (s : State) (k : Key) (p : Bool) : (s.setKey k p).fb = s.fb := rfl
@[simp] theorem State.setKey_key (s : State) (k : Key) (p : Bool) : (s.setKey k p).key = s.key.set k.val p k.isLt := rfl
@[simp] theorem State.setKey_mem (s : State) (k : Key) (p : Bool) : (s.setKey k p).mem = s.mem := rfl
@[simp] theorem State.setKey_cfg (s : State) (k : Key) (p : Bool) : (s.setKey k p).cfg = s.cfg := rfl
@[simp] theorem State.setKey_started (s : State) (k : Key) (p : Bool) : (s.setKey k p).started = s.started := rfl
@[simp] theorem State.setKey_pending (s : State) (k : Key) (p : Bool) : (s.setKey k p).pending = s.pending := rfl
@[simp] theorem State.setKey_draws (s : State) (k : Key) (p : Bool) : (s.setKey k p).draws = s.draws := rfl
@[simp] theorem State.setKey_rnd (s : State) (k : Key) (p : Bool) : (s.setKey k p).rnd = s.rnd := rfl

/-! ### tick -/

@[simp] theorem tick_v (s : State) : (tick s).v = s.v := rfl
@[simp] theorem tick_i (s : State) : (tick s).i = s.i := rfl
@[simp] theorem tick_pc (s : State) : (tick s).pc = s.pc := rfl
@[simp] theorem tick_stack (s : State) : (tick s).stack = s.stack := rfl
@[simp] theorem tick_sp (s : State) : (tick s).sp = s.sp := rfl
@[simp] theorem tick_dt (s : State) : (tick s).dt = countDown s.dt := rfl
@[simp] theorem tick_st (s : State) : (tick s).st = countDown s.st := rfl
@[simp] theorem tick_run (s : State) : (tick s).run = s.run := rfl
@[simp] theorem tick_dirty (s : State) : (tick s).dirty = s.dirty := rfl
@[simp] theorem tick_fb (s : State) : (tick s).fb = s.fb := rfl
@[simp] theorem tick_key (s : State) : (tick s).key = s.key := rfl
@[simp] theorem tick_mem (s : State) : (tick s).mem = s.mem := rfl
@[simp] theorem tick_cfg (s : State) : (tick s).cfg = s.cfg := rfl
@[simp] theorem tick_started (s : State) : (tick s).started = s.started := rfl
@[simp] theorem tick_pending (s : State) : (tick s).pending = s.pending := rfl
@[simp] theorem tick_draws (s : State) : (tick s).draws = s.draws := rfl
@[simp] theorem tick_rnd (s : State) : (tick s).rnd = s.rnd := rfl

/-! ### ackRedraw -/

@[simp] theorem ackRedraw_v (s : State) : (ackRedraw s).v = s.v := rfl
@[simp] theorem ackRedraw_i (s : State) : (ackRedraw s).i = s.i := rfl
@[simp] theorem ackRedraw_pc (s : State) : (ackRedraw s).pc = s.pc := rfl
@[simp] theorem ackRedraw_stack (s : State) : (ackRedraw s).stack = s.stack := rfl
@[simp] theorem ackRedraw_sp (s : State) : (ackRedraw s).sp = s.sp := rfl
@[simp] theorem ackRedraw_dt (s : State) : (ackRedraw s).dt = s.dt := rfl
@[simp] theorem ackRedraw_st (s : State) : (ackRedraw s).st = s.st := rfl
@[simp] theorem ackRedraw_run (s : State) : (ackRedraw s).run = s.run := rfl
@[simp] theorem ackRedraw_dirty (s : State) : (ackRedraw s).dirty = false := rfl
@[simp] theorem ackRedraw_fb (s : State) : (ackRedraw s).fb = s.fb := rfl
@[simp] theorem ackRedraw_key (s : State) : (ackRedraw s).key = s.key := rfl
@[simp] theorem ackRedraw_mem (s : State) : (ackRedraw s).mem = s.mem := rfl
@[simp] theorem ackRedraw_cfg (s : State) : (ackRedraw s).cfg = s.cfg := rfl
@[simp] theorem ackRedraw_started (s : State) : (ackRedraw s).started = s.started := rfl
@[simp] theorem ackRedraw_pending (s : State) : (ackRedraw s).pending = s.pending := rfl
@[simp] theorem ackRedraw_draws (s : State) : (ackRedraw s).draws = s.draws := rfl
@[simp] theorem ackRedraw_rnd (s : State) : (ackRedraw s).rnd = s.rnd := rfl

end Sys2Proof.Machine
end

