-- ==== Sys2Proof/Laws/Memory.lean ====
section
/-! SUPPORT. The laws of memory: a read after a write, and the canonical form every memory operation keeps. -/

namespace Sys2Proof.Machine

/-- The canonical form as a proposition: rising addresses, all in the 4096 bytes, none redundant. -/
theorem Memory.wf_iff (c : Config) (m : Memory) :
    Memory.wf c m = true ↔
      m.Pairwise (fun p q => p.1 < q.1) ∧ ∀ p ∈ m, p.1 < 4096 ∧ p.2 ≠ Memory.base c p.1 := by
  simp [Memory.wf]

@[simp] theorem Memory.wf_nil (c : Config) : Memory.wf c [] = true := by simp [Memory.wf]

/-- A read after a write gives the byte written at that address, and every other address reads as before. -/
theorem Memory.read_write (c : Config) (m : Memory) (a b : Nat) (x : Byte) (h : Memory.wf c m = true) :
    Memory.read c (Memory.write c m a x) b = if b = a then x else Memory.read c m b := by
  rw [Memory.wf_iff] at h
  obtain ⟨hs, -⟩ := h
  induction m with
  | nil =>
    by_cases hx : x = Memory.base c a <;> by_cases hb : b = a <;> simp [Memory.write, Memory.read, hx, hb]
  | cons p m ih =>
    obtain ⟨k, y⟩ := p
    rw [List.pairwise_cons] at hs
    have absent : ∀ d, d ≤ k → Memory.read c m d = Memory.base c d := by
      intro d hd
      have hs1 := hs.1
      clear ih hs
      induction m with
      | nil => rfl
      | cons q m ih =>
        obtain ⟨kq, yq⟩ := q
        have hq := hs1 (kq, yq) (by simp)
        simp only [Memory.read, show d ≠ kq by simp at hq; omega, if_false]
        exact ih fun q hq => hs1 q (by simp [hq])
    have ih := ih hs.2
    unfold Memory.write
    split
    · by_cases hb : b = a
      · subst hb
        split
        · rename_i h1 h2
          simp [Memory.read, absent b (by omega), h2, show b ≠ k by omega]
        · simp [Memory.read]
      · split <;> simp [Memory.read, hb]
    · split
      · rename_i h1 h2
        subst h2
        by_cases hb : b = a
        · subst hb
          split <;> simp_all [Memory.read]
        · split <;> simp [Memory.read, hb]
      · by_cases hb : b = k
        · subst hb; rename_i h1 h2; simp [Memory.read, Ne.symm h2]
        · simp [Memory.read, hb, ih]

/-- Every entry of a written memory is an old entry or the new pair. -/
theorem Memory.mem_write (c : Config) (m : Memory) (a : Nat) (x : Byte) (p : Host.Cell) (hp : p ∈ Memory.write c m a x) :
    p ∈ m ∨ (p = (a, x) ∧ x ≠ Memory.base c a) := by
  induction m with
  | nil =>
    simp only [Memory.write] at hp
    split at hp <;> simp_all
  | cons q m ih =>
    obtain ⟨k, y⟩ := q
    simp only [Memory.write] at hp
    split at hp
    · split at hp <;> simp_all
      tauto
    · split at hp
      · split at hp <;> simp_all
        tauto
      · simp only [List.mem_cons] at hp ⊢
        rcases hp with h | h
        · exact .inl (.inl h)
        · rcases ih h with h | h <;> tauto

/-- A write inside the 4096 bytes keeps the canonical form. -/
theorem Memory.wf_write (c : Config) (m : Memory) (a : Nat) (x : Byte) (h : Memory.wf c m = true) (ha : a < 4096) :
    Memory.wf c (Memory.write c m a x) = true := by
  rw [Memory.wf_iff] at h ⊢
  constructor
  · obtain ⟨hs, -⟩ := h
    induction m with
    | nil => simp only [Memory.write]; split <;> simp
    | cons q m ih =>
      obtain ⟨k, y⟩ := q
      rw [List.pairwise_cons] at hs
      simp only [Memory.write]
      split
      · split
        · exact List.pairwise_cons.2 hs
        · refine List.pairwise_cons.2 ⟨?_, List.pairwise_cons.2 hs⟩
          intro p hp
          rcases List.mem_cons.1 hp with rfl | hp
          · assumption
          · have := hs.1 p hp; simp at this; omega
      · split
        · rename_i h1 h2
          subst h2
          split
          · exact hs.2
          · exact List.pairwise_cons.2 ⟨hs.1, hs.2⟩
        · refine List.pairwise_cons.2 ⟨?_, ih hs.2⟩
          intro p hp
          rcases Memory.mem_write c m a x p hp with hp | ⟨rfl, -⟩
          · exact hs.1 p hp
          · simp; omega
  · intro p hp
    rcases Memory.mem_write c m a x p hp with hp | ⟨rfl, hx⟩
    · exact h.2 p hp
    · exact ⟨ha, hx⟩

/-- Writing a list of bytes that lies inside the 4096 bytes keeps the canonical form. -/
theorem Memory.wf_writeBytes (c : Config) (bs : List Byte) (m : Memory) (a : Nat) (h : Memory.wf c m = true)
    (ha : bs = [] ∨ a + bs.length ≤ 4096) : Memory.wf c (Memory.writeBytes c m a bs) = true := by
  induction bs generalizing m a with
  | nil => exact h
  | cons b bs ih =>
    simp only [List.length_cons, reduceCtorEq, false_or] at ha
    exact ih _ _ (Memory.wf_write c m a b h (by omega)) (.inr (by omega))

/-- A read after writing a list of bytes: the listed byte inside the range, the old byte outside. -/
theorem Memory.read_writeBytes (c : Config) (bs : List Byte) (m : Memory) (a d : Nat) (h : Memory.wf c m = true)
    (ha : bs = [] ∨ a + bs.length ≤ 4096) :
    Memory.read c (Memory.writeBytes c m a bs) d =
      if hd : a ≤ d ∧ d < a + bs.length then bs[d - a]'(by omega) else Memory.read c m d := by
  induction bs generalizing m a with
  | nil => simp [Memory.writeBytes]
  | cons b bs ih =>
    simp only [List.length_cons, reduceCtorEq, false_or] at ha
    rw [Memory.writeBytes, ih _ _ (Memory.wf_write c m a b h (by omega)) (.inr (by omega)), Memory.read_write c m a d b h]
    by_cases h1 : d = a
    · subst h1; simp
    · by_cases h2 : a + 1 ≤ d ∧ d < a + 1 + bs.length
      · have h3 : a ≤ d ∧ d < a + (b :: bs).length := by simp; omega
        have h4 : d - a = (d - (a + 1)) + 1 := by omega
        rw [dif_pos h2, dif_pos h3]
        simp only [h4, List.getElem_cons_succ]
      · have h3 : ¬(a ≤ d ∧ d < a + (b :: bs).length) := by simp; omega
        rw [dif_neg h2, dif_neg h3, if_neg h1]

@[simp] theorem Memory.length_readBytes (c : Config) (m : Memory) (a n : Nat) :
    (Memory.readBytes c m a n).length = n := by
  induction n generalizing a with
  | zero => rfl
  | succ n ih => simp [Memory.readBytes, ih]

/-- The bytes read from a range are the bytes at its addresses. -/
theorem Memory.getElem_readBytes (c : Config) (m : Memory) (a n j : Nat)
    (h : j < (Memory.readBytes c m a n).length) :
    (Memory.readBytes c m a n)[j] = Memory.read c m (a + j) := by
  induction n generalizing a j with
  | zero => simp at h
  | succ n ih =>
    cases j with
    | zero => rfl
    | succ j =>
      simp only [Memory.readBytes, List.getElem_cons_succ]
      rw [ih]
      congr 1
      omega

/-! ### The same for State -/

/-- The bytes of a state after a store inside the 4096 bytes. -/
theorem State.byte_store (s : State) (a d : Nat) (bs : List Byte) (h : Memory.wf s.cfg s.mem = true)
    (ha : bs = [] ∨ a + bs.length ≤ 4096) :
    (s.store a bs).byte d = if hd : a ≤ d ∧ d < a + bs.length then bs[d - a]'(by omega) else s.byte d :=
  Memory.read_writeBytes s.cfg bs s.mem a d h ha

/-- A store inside the 4096 bytes keeps the canonical form. -/
theorem State.wf_store (s : State) (a : Nat) (bs : List Byte) (h : Memory.wf s.cfg s.mem = true)
    (ha : bs = [] ∨ a + bs.length ≤ 4096) : Memory.wf (s.store a bs).cfg (s.store a bs).mem = true :=
  Memory.wf_writeBytes s.cfg bs s.mem a h ha

/-- Reset memory is in canonical form. -/
theorem State.wf_resetWith (c : Config) : Memory.wf (State.resetWith c).cfg (State.resetWith c).mem = true :=
  Memory.wf_nil c

end Sys2Proof.Machine
end

