-- ==== Sys2Proof/Laws/Ops.lean ====
section
/-! SUPPORT. One lemma per shared operation, saying everything it can do: registers, the call stack, the framebuffer, the
operand forms, and raising an error. Callers cite these and do not unfold the operation. -/

namespace Sys2Proof.Machine

/-! ### Registers -/

@[simp] theorem State.reg_setReg (s : State) (x r : Reg) (b : Byte) :
    (s.setReg x b).reg r = if r = x then b else s.reg r := by
  simp [State.reg, State.setReg, Vector.getElem_set, Fin.ext_iff, eq_comm]

@[simp] theorem State.reg_setRegThenFlag (s : State) (x r : Reg) (b f : Byte) :
    (s.setRegThenFlag x b f).reg r = if r = vF then f else if r = x then b else s.reg r := by
  simp [State.setRegThenFlag]

@[simp] theorem State.reg_advance (s : State) (r : Reg) : s.advance.reg r = s.reg r := rfl

@[simp] theorem State.reg_skipIf (s : State) (c : Bool) (r : Reg) : (s.skipIf c).reg r = s.reg r := rfl

/-- A skip changes PC alone, by 4 or by 2. -/
theorem State.skipIf_eq (s : State) (c : Bool) :
    s.skipIf c = { s with pc := if c = true then s.pc + 4 else s.pc + 2 } := by
  cases c <;> rfl

@[simp] theorem State.reg_store (s : State) (a : Nat) (bs : List Byte) (r : Reg) : (s.store a bs).reg r = s.reg r := rfl

@[simp] theorem State.reg_halt (s : State) (k : ErrorKind) (op : Option Word) (r : Reg) :
    (s.halt k op).reg r = s.reg r := rfl

@[simp] theorem State.reg_beginCycle (s : State) (d : Option Byte) (r : Reg) : (s.beginCycle d).reg r = s.reg r := rfl

@[simp] theorem State.byte_setReg (s : State) (x : Reg) (b : Byte) (a : Nat) : (s.setReg x b).byte a = s.byte a := rfl

@[simp] theorem State.byte_advance (s : State) (a : Nat) : s.advance.byte a = s.byte a := rfl

@[simp] theorem State.byte_skipIf (s : State) (c : Bool) (a : Nat) : (s.skipIf c).byte a = s.byte a := rfl

@[simp] theorem State.byte_halt (s : State) (k : ErrorKind) (op : Option Word) (a : Nat) :
    (s.halt k op).byte a = s.byte a := rfl

@[simp] theorem State.byte_beginCycle (s : State) (d : Option Byte) (a : Nat) :
    (s.beginCycle d).byte a = s.byte a := rfl

/-! ### The call stack -/

/-- `push?` succeeds exactly below 16 entries, and then writes the entry SP names and increments SP. -/
theorem State.push?_eq_some (s t : State) (w : Word) :
    s.push? w = some t ↔ ∃ h : s.sp.val < 16,
      t = { s with stack := s.stack.set s.sp.val w h, sp := ⟨s.sp.val + 1, Nat.succ_lt_succ h⟩ } := by
  unfold State.push?
  split
  · rename_i h
    exact ⟨fun e => ⟨h, (Option.some.inj e).symm⟩, fun ⟨_, e⟩ => by rw [e]⟩
  · rename_i h
    exact ⟨fun e => by simp at e, fun ⟨h', _⟩ => absurd h' h⟩

theorem State.push?_eq_none (s : State) (w : Word) : s.push? w = none ↔ s.sp.val = 16 := by
  have := s.sp.isLt
  unfold State.push?
  split <;> simp <;> omega

/-- `pop?` succeeds exactly on a nonempty stack, and then decrements SP and gives the entry it names. -/
theorem State.pop?_eq_some (s t : State) (w : Word) :
    s.pop? = some (w, t) ↔ ∃ h : 0 < s.sp.val,
      w = s.stack[s.sp.val - 1]'(by have := s.sp.isLt; omega) ∧
      t = { s with sp := ⟨s.sp.val - 1, by have := s.sp.isLt; omega⟩ } := by
  unfold State.pop?
  split
  · rename_i h
    constructor
    · intro e
      obtain ⟨h1, h2⟩ := Prod.mk.inj (Option.some.inj e)
      exact ⟨h, h1.symm, h2.symm⟩
    · rintro ⟨_, rfl, rfl⟩
      rfl
  · rename_i h
    exact ⟨fun e => by simp at e, fun ⟨h', _⟩ => absurd h' h⟩

theorem State.pop?_eq_none (s : State) : s.pop? = none ↔ s.sp.val = 0 := by
  unfold State.pop?
  split <;> simp <;> omega

/-! ### The framebuffer -/

/-- Flipping a pixel inverts it and leaves every other pixel alone. -/
@[simp] theorem Framebuffer.pixel_flip (fb : Framebuffer) (px qx : Fin 64) (py qy : Fin 32) :
    Framebuffer.pixel (Framebuffer.flip fb px py) qx qy =
      if qx = px ∧ qy = py then !Framebuffer.pixel fb px py else Framebuffer.pixel fb qx qy := by
  unfold Framebuffer.pixel Framebuffer.flip
  by_cases hy : qy = py
  · subst hy
    by_cases hx : qx = px
    · subst hx; simp
    · have : ¬ px.val = qx.val := fun h => hx (Fin.ext h.symm)
      simp [hx, this]
  · have : ¬ py.val = qy.val := fun h => hy (Fin.ext h.symm)
    simp [hy, this]

@[simp] theorem Framebuffer.pixel_clear (px : Fin 64) (py : Fin 32) :
    Framebuffer.pixel Framebuffer.clear px py = false := by
  simp [Framebuffer.pixel, Framebuffer.clear]

/-- Two framebuffers with the same pixels are the same. -/
theorem Framebuffer.ext_pixel (f g : Framebuffer)
    (h : ∀ px py, Framebuffer.pixel f px py = Framebuffer.pixel g px py) : f = g := by
  refine Vector.ext fun y hy => Vector.ext fun x hx => ?_
  exact h ⟨x, hx⟩ ⟨y, hy⟩

/-! ### Operand forms -/

@[simp] theorem zextAddr_toNat (nnn : Addr) : (zextAddr nnn).toNat = nnn.toNat := by
  have := nnn.isLt
  simp [zextAddr]
  omega

/-- A key index is a register value below 16. -/
theorem keyIndex_eq_some (b : Byte) (k : Key) : keyIndex b = some k ↔ b.toNat = k.val := by
  unfold keyIndex
  split
  · simp [Fin.ext_iff]
  · have := k.isLt; simp; omega

theorem keyIndex_eq_none (b : Byte) : keyIndex b = none ↔ b.toNat > 0xF := by
  unfold keyIndex
  split <;> simp <;> omega

/-- Loading a list of bytes from register `k` on: each register of the range holds its byte, the others keep theirs. -/
theorem getElem_loadRegs (v : Vector Byte 16) (k : Nat) (bs : List Byte) (hk : k + bs.length ≤ 16) (r : Nat)
    (hr : r < 16) :
    (loadRegs v k bs)[r] = if h : k ≤ r ∧ r < k + bs.length then bs[r - k]'(by omega) else v[r] := by
  induction bs generalizing v k with
  | nil => simp [loadRegs]
  | cons b bs ih =>
    simp only [List.length_cons] at hk
    have hk' : k < 16 := by omega
    simp only [loadRegs, hk', dif_pos]
    rw [ih _ _ (by omega)]
    by_cases h1 : r = k
    · subst h1; simp
    · by_cases h2 : k + 1 ≤ r ∧ r < k + 1 + bs.length
      · have h3 : k ≤ r ∧ r < k + (b :: bs).length := by simp; omega
        have h4 : r - k = (r - (k + 1)) + 1 := by omega
        rw [dif_pos h2, dif_pos h3]
        simp only [h4, List.getElem_cons_succ]
      · have h3 : ¬(k ≤ r ∧ r < k + (b :: bs).length) := by simp; omega
        rw [dif_neg h2, dif_neg h3, Vector.getElem_set_ne _ _ (fun h => h1 h.symm)]

@[simp] theorem State.length_regsUpTo (s : State) (x : Reg) : (s.regsUpTo x).length = x.val + 1 := by
  have := x.isLt
  simp [State.regsUpTo]

/-- The stored registers are V0, …, Vx in order. -/
theorem State.getElem_regsUpTo (s : State) (x : Reg) (j : Nat) (h : j < (s.regsUpTo x).length) :
    (s.regsUpTo x)[j] = s.v[j]'(by have := x.isLt; simp at h; omega) := by
  simp [State.regsUpTo]

@[simp] theorem length_decimalDigits (b : Byte) : (decimalDigits b).length = 3 := rfl

/-! ### Errors -/

/-- Raising an error is the one transition of R262. -/
@[simp] theorem raise_eq_next (k : ErrorKind) (op : Option Word) (s : State) : raise k op s = .next (s.halt k op) := rfl

@[simp] theorem raiseIn_eq_next (k : ErrorKind) (i : Instr) (s : State) :
    raiseIn k i s = .next (s.halt k (some (encode i))) := rfl

/-! ### Fetch -/

/-- A fetch that succeeds reads the word at PC. -/
theorem fetch_eq_ok (s : State) (op : Word) : fetch s = .ok op ↔ FetchOk s ∧ op = s.wordAtPc := by
  unfold fetch
  split
  · split
    · constructor
      · intro e; exact ⟨⟨‹_›, ‹_›⟩, (Except.ok.inj e).symm⟩
      · rintro ⟨-, rfl⟩; rfl
    · exact ⟨fun e => (nomatch e), fun ⟨h, _⟩ => absurd h.2 ‹_›⟩
  · exact ⟨fun e => (nomatch e), fun ⟨h, _⟩ => absurd h.1 ‹_›⟩

/-- Why a fetch fails: the range check first, then the PC check. -/
theorem fetch_eq_error (s : State) (k : ErrorKind) :
    fetch s = .error k ↔
      (k = .outOfRange ∧ ¬ InRange s.pc.toNat 2) ∨
      (k = .badPc ∧ InRange s.pc.toNat 2 ∧ ¬ PcAligned s.pc ∧ s.cfg.pcCheck = .strict) := by
  have two : ∀ p : PcCheck, p = .strict ↔ p ≠ .permissive := by intro p; cases p <;> simp
  unfold fetch
  split
  · split
    · rename_i h1 h2
      constructor
      · intro e; exact nomatch e
      · rintro (⟨-, h⟩ | ⟨-, -, h3, h4⟩)
        · exact absurd h1 h
        · rw [two] at h4
          rcases h2 with h2 | h2
          · exact absurd h2 h3
          · exact absurd h2 h4
    · rename_i h1 h2
      rw [not_or] at h2
      constructor
      · intro e
        exact .inr ⟨(Except.error.inj e).symm, h1, h2.1, (two _).2 h2.2⟩
      · rintro (⟨-, h⟩ | ⟨rfl, -⟩)
        · exact absurd h1 h
        · rfl
  · rename_i h1
    constructor
    · intro e; exact .inl ⟨(Except.error.inj e).symm, h1⟩
    · rintro (⟨rfl, -⟩ | ⟨-, h, -⟩)
      · rfl
      · exact absurd h h1

/-! ### Cycle: everything one cycle can do -/

/-- The inversion lemma of a cycle in `Running`: it halts on a failed fetch, halts on an unrecognised word, or executes
the decoded instruction. -/
theorem cycle_running_cases (rnd : Option Byte) (s : State) (hr : s.run = .running) :
    (∃ k, fetch s = .error k ∧ cycle rnd s = .next ((s.beginCycle rnd).halt k none)) ∨
    (∃ op, fetch s = .ok op ∧ decode op = none ∧
      cycle rnd s = .next ((s.beginCycle rnd).halt .decodeError (some op))) ∨
    (∃ op i, fetch s = .ok op ∧ decode op = some i ∧ cycle rnd s = exec i (s.beginCycle rnd)) := by
  have hf : fetch (s.beginCycle rnd) = fetch s := rfl
  have hc : cycle rnd s = runInstruction (s.beginCycle rnd) := by simp only [cycle, hr]
  rw [hc]
  unfold runInstruction
  rw [hf]
  cases h : fetch s with
  | error k => exact .inl ⟨k, rfl, rfl⟩
  | ok op =>
    cases hd : decode op with
    | none => exact .inr (.inl ⟨op, rfl, hd, by simp [hd]⟩)
    | some i => exact .inr (.inr ⟨op, i, rfl, hd, by simp [hd]⟩)

end Sys2Proof.Machine
end

