-- ==== Sys2Proof/Laws/Display.lean ====
section
/-! SUPPORT. What drawing a sprite does to the whole framebuffer: the closed form of the loops of rule R191. -/

namespace Sys2Proof.Machine

/-- A set bit among the first `k` columns of row `b`, drawn at `(x0, y)`, falls on the pixel. -/
def ColumnsCover (b : Byte) (x0 y k : Nat) (px : Fin 64) (py : Fin 32) : Prop :=
  ∃ c, c < k ∧ spriteBit b c = true ∧ wrapX (x0 + c) = px ∧ wrapY y = py

/-- A set bit of the rows, the first drawn at `(x0, y0)`, falls on the pixel. -/
def RowsCover (rows : List Byte) (x0 y0 : Nat) (px : Fin 64) (py : Fin 32) : Prop :=
  ∃ r, ∃ h : r < rows.length, ColumnsCover rows[r] x0 (y0 + r) 8 px py

/-- Drawing up to 8 columns inverts exactly the covered pixels. -/
theorem pixel_drawColumns (d : Framebuffer × Bool) (b : Byte) (x0 y k : Nat) (hk : k ≤ 8) (px : Fin 64) (py : Fin 32) :
    (ColumnsCover b x0 y k px py →
      Framebuffer.pixel (drawColumns d b x0 y k).1 px py = !Framebuffer.pixel d.1 px py) ∧
    (¬ ColumnsCover b x0 y k px py →
      Framebuffer.pixel (drawColumns d b x0 y k).1 px py = Framebuffer.pixel d.1 px py) := by
  induction k with
  | zero => exact ⟨fun ⟨c, h, _⟩ => absurd h (Nat.not_lt_zero c), fun _ => rfl⟩
  | succ k ih =>
    have ih := ih (by omega)
    by_cases hb : spriteBit b k = true
    · simp only [drawColumns, hb, if_true, drawPixel, Framebuffer.pixel_flip]
      by_cases hp : px = wrapX (x0 + k) ∧ py = wrapY y
      · obtain ⟨rfl, rfl⟩ := hp
        have hn : ¬ ColumnsCover b x0 y k (wrapX (x0 + k)) (wrapY y) := by
          rintro ⟨c, hc, -, hx, -⟩
          simp only [wrapX, Fin.mk.injEq] at hx
          omega
        refine ⟨fun _ => ?_, fun h => absurd ⟨k, by omega, hb, rfl, rfl⟩ h⟩
        simp [ih.2 hn]
      · simp only [hp, if_false]
        refine ⟨?_, ?_⟩
        · rintro ⟨c, hc, hbc, hx, hy⟩
          refine ih.1 ⟨c, ?_, hbc, hx, hy⟩
          rcases Nat.lt_succ_iff_lt_or_eq.1 hc with h | h
          · exact h
          · subst h; exact absurd ⟨hx.symm, hy.symm⟩ hp
        · intro h
          exact ih.2 fun ⟨c, hc, hr⟩ => h ⟨c, by omega, hr⟩
    · simp only [drawColumns, hb, Bool.false_eq_true, if_false]
      refine ⟨?_, fun h => ih.2 fun ⟨c, hc, hr⟩ => h ⟨c, by omega, hr⟩⟩
      rintro ⟨c, hc, hbc, hr⟩
      refine ih.1 ⟨c, ?_, hbc, hr⟩
      rcases Nat.lt_succ_iff_lt_or_eq.1 hc with h | h
      · exact h
      · subst h; exact absurd hbc hb

/-- Drawing up to 8 columns finds a collision exactly where a covered pixel was 1. -/
theorem collision_drawColumns (d : Framebuffer × Bool) (b : Byte) (x0 y k : Nat) (hk : k ≤ 8) :
    (drawColumns d b x0 y k).2 = true ↔
      d.2 = true ∨ ∃ px py, ColumnsCover b x0 y k px py ∧ Framebuffer.pixel d.1 px py = true := by
  induction k with
  | zero => simp [drawColumns, ColumnsCover]
  | succ k ih =>
    have ih := ih (by omega)
    by_cases hb : spriteBit b k = true
    · have hn : ¬ ColumnsCover b x0 y k (wrapX (x0 + k)) (wrapY y) := by
        rintro ⟨c, hc, -, hx, -⟩
        simp only [wrapX, Fin.mk.injEq] at hx
        omega
      have hp := (pixel_drawColumns d b x0 y k (by omega) (wrapX (x0 + k)) (wrapY y)).2 hn
      simp only [drawColumns, hb, if_true, drawPixel, Bool.or_eq_true, ih, hp]
      constructor
      · rintro ((h | ⟨px, py, ⟨c, hc, hr⟩, h⟩) | h)
        · exact .inl h
        · exact .inr ⟨px, py, ⟨c, by omega, hr⟩, h⟩
        · exact .inr ⟨_, _, ⟨k, by omega, hb, rfl, rfl⟩, h⟩
      · rintro (h | ⟨px, py, ⟨c, hc, hbc, rfl, rfl⟩, h⟩)
        · exact .inl (.inl h)
        · rcases Nat.lt_succ_iff_lt_or_eq.1 hc with hc | rfl
          · exact .inl (.inr ⟨_, _, ⟨c, hc, hbc, rfl, rfl⟩, h⟩)
          · exact .inr h
    · simp only [drawColumns, hb, Bool.false_eq_true, if_false, ih]
      constructor
      · rintro (h | ⟨px, py, ⟨c, hc, hr⟩, h⟩)
        · exact .inl h
        · exact .inr ⟨px, py, ⟨c, by omega, hr⟩, h⟩
      · rintro (h | ⟨px, py, ⟨c, hc, hbc, hr⟩, h⟩)
        · exact .inl h
        · rcases Nat.lt_succ_iff_lt_or_eq.1 hc with hc | rfl
          · exact .inr ⟨_, _, ⟨c, hc, hbc, hr⟩, h⟩
          · exact absurd hbc hb

/-- A cover of `b :: rows` is a cover by row `b` or by the rows after it. -/
theorem rowsCover_cons (b : Byte) (rows : List Byte) (x0 y0 : Nat) (px : Fin 64) (py : Fin 32) :
    RowsCover (b :: rows) x0 y0 px py ↔ ColumnsCover b x0 y0 8 px py ∨ RowsCover rows x0 (y0 + 1) px py := by
  constructor
  · rintro ⟨r, hr, h⟩
    cases r with
    | zero => exact .inl h
    | succ r =>
      refine .inr ⟨r, by simpa using hr, ?_⟩
      rw [show y0 + 1 + r = y0 + (r + 1) by omega]
      exact h
  · rintro (h | ⟨r, hr, h⟩)
    · exact ⟨0, by simp, h⟩
    · refine ⟨r + 1, by simpa using hr, ?_⟩
      rw [show y0 + (r + 1) = y0 + 1 + r by omega]
      exact h

/-- With at most 32 rows the first row and a later one never cover the same pixel (R194). -/
theorem rowsCover_disjoint (b : Byte) (rows : List Byte) (x0 y0 : Nat) (hl : rows.length < 32) (px : Fin 64)
    (py : Fin 32) (h1 : ColumnsCover b x0 y0 8 px py) (h2 : RowsCover rows x0 (y0 + 1) px py) : False := by
  obtain ⟨-, -, -, -, hy⟩ := h1
  obtain ⟨r, hr, -, -, -, -, hy'⟩ := h2
  rw [← hy] at hy'
  simp only [wrapY, Fin.mk.injEq] at hy'
  omega

/-- Drawing a sprite of at most 32 rows inverts exactly the covered pixels (R191, R194). -/
theorem pixel_drawSprite (rows : List Byte) (d : Framebuffer × Bool) (x0 y0 : Nat) (hl : rows.length ≤ 32)
    (px : Fin 64) (py : Fin 32) :
    (RowsCover rows x0 y0 px py →
      Framebuffer.pixel (drawSprite d x0 y0 rows).1 px py = !Framebuffer.pixel d.1 px py) ∧
    (¬ RowsCover rows x0 y0 px py →
      Framebuffer.pixel (drawSprite d x0 y0 rows).1 px py = Framebuffer.pixel d.1 px py) := by
  induction rows generalizing d y0 with
  | nil => exact ⟨fun ⟨_, h, _⟩ => absurd h (by simp), fun _ => rfl⟩
  | cons b rows ih =>
    simp only [List.length_cons] at hl
    have ih := ih (drawColumns d b x0 y0 8) (y0 + 1) (by omega)
    have hc := pixel_drawColumns d b x0 y0 8 (by omega) px py
    rw [rowsCover_cons]
    simp only [drawSprite]
    by_cases h1 : ColumnsCover b x0 y0 8 px py
    · have h2 : ¬ RowsCover rows x0 (y0 + 1) px py := rowsCover_disjoint b rows x0 y0 (by omega) px py h1
      exact ⟨fun _ => (ih.2 h2).trans (hc.1 h1), fun h => absurd (.inl h1) h⟩
    · by_cases h2 : RowsCover rows x0 (y0 + 1) px py
      · exact ⟨fun _ => (ih.1 h2).trans (by rw [hc.2 h1]), fun h => absurd (.inr h2) h⟩
      · exact ⟨fun h => h.elim (absurd · h1) (absurd · h2), fun _ => (ih.2 h2).trans (hc.2 h1)⟩

/-- Drawing a sprite of at most 32 rows finds a collision exactly where a covered pixel was 1 (R193). -/
theorem collision_drawSprite (rows : List Byte) (d : Framebuffer × Bool) (x0 y0 : Nat) (hl : rows.length ≤ 32) :
    (drawSprite d x0 y0 rows).2 = true ↔
      d.2 = true ∨ ∃ px py, RowsCover rows x0 y0 px py ∧ Framebuffer.pixel d.1 px py = true := by
  induction rows generalizing d y0 with
  | nil =>
    refine ⟨.inl, fun h => h.elim id ?_⟩
    rintro ⟨_, _, ⟨_, h, _⟩, _⟩
    exact absurd h (by simp)
  | cons b rows ih =>
    simp only [List.length_cons] at hl
    rw [drawSprite, ih _ _ (by omega), collision_drawColumns d b x0 y0 8 (by omega)]
    constructor
    · rintro ((h | ⟨px, py, hc, h⟩) | ⟨px, py, hr, h⟩)
      · exact .inl h
      · exact .inr ⟨px, py, (rowsCover_cons ..).2 (.inl hc), h⟩
      · have hn : ¬ ColumnsCover b x0 y0 8 px py := fun hc => rowsCover_disjoint b rows x0 y0 (by omega) px py hc hr
        rw [(pixel_drawColumns d b x0 y0 8 (by omega) px py).2 hn] at h
        exact .inr ⟨px, py, (rowsCover_cons ..).2 (.inr hr), h⟩
    · rintro (h | ⟨px, py, hr, h⟩)
      · exact .inl (.inl h)
      · rcases (rowsCover_cons ..).1 hr with hc | hr
        · exact .inl (.inr ⟨px, py, hc, h⟩)
        · have hn : ¬ ColumnsCover b x0 y0 8 px py := fun hc => rowsCover_disjoint b rows x0 y0 (by omega) px py hc hr
          refine .inr ⟨px, py, hr, ?_⟩
          rw [(pixel_drawColumns d b x0 y0 8 (by omega) px py).2 hn]
          exact h

end Sys2Proof.Machine
end

