-- ==== Sys2Proof/Laws/Exec.lean ====
section
/-! SUPPORT. What executing any instruction can do to the run state and to what the host owns: the inversion lemma that
statements about every instruction cite instead of unfolding the 35 meanings. -/

namespace Sys2Proof.Machine

/-- What an instruction never touches: the parameters, the keys, the schedule, the `load` window, and its own draw. -/
structure KeepsHostSide (s t : State) : Prop where
  cfg     : t.cfg = s.cfg
  key     : t.key = s.key
  pending : t.pending = s.pending
  started : t.started = s.started
  rnd     : t.rnd = s.rnd

/-- A next state of an instruction halts with the instruction's own word, or keeps the run state, or is the key wait of
LD Vx, K. -/
theorem exec_next_cases (i : Instr) (s t : State) (h : exec i s = .next t) :
    (∃ k, t = s.halt k (some (encode i))) ∨ (t.run = s.run ∧ ∀ x, i ≠ .ldK x) ∨
    (∃ x, i = .ldK x ∧ t = { s with run := .waitingForKey x }) := by
  cases i with
  | ldK x => cases h; exact .inr (.inr ⟨x, rfl, rfl⟩)
  | call nnn =>
    simp only [exec, execCall] at h
    split at h
    · rename_i u hu
      obtain ⟨_, rfl⟩ := (State.push?_eq_some _ _ _).1 hu
      cases h; exact .inr (.inl ⟨rfl, by simp⟩)
    · cases h; exact .inl ⟨_, rfl⟩
  | ret =>
    simp only [exec, execRet] at h
    split at h
    · rename_i u v hu
      obtain ⟨_, rfl, rfl⟩ := (State.pop?_eq_some _ _ _).1 hu
      cases h; exact .inr (.inl ⟨rfl, by simp⟩)
    · cases h; exact .inl ⟨_, rfl⟩
  | _ =>
    simp only [exec, execSys, execCls, execJp, execSeImm, execSneImm, execSeReg, execSneReg, execLdImm, execAddImm,
      execLdReg, execOrReg, execAndReg, execXorReg, execAddReg, execSub, execShr, execSubn, execShl, execLdI, execJpV0,
      execRnd, execDrw, execSkp, execSknp, execLdVxDt, execLdDt, execLdSt, execAddI, execLdF, execLdB, execLdStore,
      execLdLoad] at h
    first
    | (cases h; exact .inr (.inl ⟨rfl, by simp⟩))
    | (split at h <;> cases h <;> first | exact .inl ⟨_, rfl⟩ | exact .inr (.inl ⟨rfl, by simp⟩))

/-- No instruction touches what the host owns. -/
theorem exec_keepsHostSide (i : Instr) (s t : State) (h : exec i s = .next t) : KeepsHostSide s t := by
  cases i with
  | call nnn =>
    simp only [exec, execCall] at h
    split at h
    · rename_i u hu
      obtain ⟨_, rfl⟩ := (State.push?_eq_some _ _ _).1 hu
      cases h; exact ⟨rfl, rfl, rfl, rfl, rfl⟩
    · cases h; exact ⟨rfl, rfl, rfl, rfl, rfl⟩
  | ret =>
    simp only [exec, execRet] at h
    split at h
    · rename_i u v hu
      obtain ⟨_, rfl, rfl⟩ := (State.pop?_eq_some _ _ _).1 hu
      cases h; exact ⟨rfl, rfl, rfl, rfl, rfl⟩
    · cases h; exact ⟨rfl, rfl, rfl, rfl, rfl⟩
  | _ =>
    simp only [exec, execSys, execCls, execJp, execSeImm, execSneImm, execSeReg, execSneReg, execLdImm, execAddImm,
      execLdReg, execOrReg, execAndReg, execXorReg, execAddReg, execSub, execShr, execSubn, execShl, execLdI, execJpV0,
      execRnd, execDrw, execSkp, execSknp, execLdVxDt, execLdK, execLdDt, execLdSt, execAddI, execLdF, execLdB,
      execLdStore, execLdLoad] at h
    first
    | (cases h; exact ⟨rfl, rfl, rfl, rfl, rfl⟩)
    | (split at h <;> cases h <;> exact ⟨rfl, rfl, rfl, rfl, rfl⟩)

end Sys2Proof.Machine
end

