-- ==== Sys2Proof/Laws/PerInstr.lean ====
section
/-! SUPPORT. Facts about every instruction as syntax, one lemma per constructor. -/

namespace Sys2Proof.Laws.RowPattern

/-- The word the encoder gives an instruction matches the instruction's row of the opcode map: `op & mask = match`
(R85, R86). -/
def Statement (i : Instr) : Prop := encode i &&& i.pattern.1 = i.pattern.2

/-- The value of two bit strings side by side. -/
theorem toNat_append_add {v w : Nat} (a : BitVec v) (b : BitVec w) : (a ++ b).toNat = a.toNat * 2 ^ w + b.toNat := by
  rw [BitVec.toNat_append, ← Nat.shiftLeft_add_eq_or_of_lt b.isLt, Nat.shiftLeft_eq]

/-- Under mask 0xF000 the family nibble alone decides (formats NNN, XKK and XYN). -/
theorem mask_F000 (f k : Nat) (hk : k < 4096) :
    BitVec.ofNat 16 (f * 4096 + k) &&& (0xF000 : Word) = BitVec.ofNat 16 (f * 4096) := by
  have e : (BitVec.ofNat 16 (f * 4096 + k) : Word) = BitVec.ofNat 4 f ++ BitVec.ofNat 12 k := by
    apply BitVec.eq_of_toNat_eq
    simp only [toNat_append_add, BitVec.toNat_ofNat]
    omega
  have e' : (BitVec.ofNat 16 (f * 4096) : Word) = BitVec.ofNat 4 f ++ (0 : BitVec 12) := by
    apply BitVec.eq_of_toNat_eq
    rw [toNat_append_add]
    simp only [BitVec.toNat_ofNat, BitVec.ofNat_eq_ofNat]
    omega
  rw [e, e', show (0xF000 : Word) = (0xF : BitVec 4) ++ (0 : BitVec 12) from rfl, BitVec.and_append]
  have : ∀ a : BitVec 4, a &&& 0xF = a := by decide
  rw [this]
  simp

/-- Format XKK under mask 0xF000. -/
theorem mask_XKK (f : Nat) (x : Reg) (k : Nat) (hk : k < 2 ^ 8) :
    wordXKK f x k &&& (0xF000 : Word) = BitVec.ofNat 16 (f * 4096) := by
  have := x.isLt
  rw [wordXKK, Nat.add_assoc]
  exact mask_F000 f _ (by omega)

/-- Format XYN under mask 0xF000. -/
theorem mask_XYN (f : Nat) (x y : Reg) (n : Nat) (hn : n < 16) :
    wordXYN f x y n &&& (0xF000 : Word) = BitVec.ofNat 16 (f * 4096) := by
  have := x.isLt
  have := y.isLt
  rw [wordXYN, Nat.add_assoc, Nat.add_assoc]
  exact mask_F000 f _ (by omega)

/-- The same under mask 0xF00F: the family nibble and the low nibble decide (format XY). -/
theorem mask_F00F (f x y n : Nat) (hx : x < 16) (hy : y < 16) (hn : n < 16) :
    BitVec.ofNat 16 (f * 4096 + x * 256 + y * 16 + n) &&& (0xF00F : Word) = BitVec.ofNat 16 (f * 4096 + n) := by
  have e : ∀ z, z < 256 → (BitVec.ofNat 16 (f * 4096 + z * 16 + n) : Word) =
      BitVec.ofNat 4 f ++ (BitVec.ofNat 8 z ++ BitVec.ofNat 4 n) := by
    intro z hz
    apply BitVec.eq_of_toNat_eq
    simp only [toNat_append_add, BitVec.toNat_ofNat]
    omega
  rw [show f * 4096 + x * 256 + y * 16 + n = f * 4096 + (x * 16 + y) * 16 + n by omega, e _ (by omega),
    show f * 4096 + n = f * 4096 + 0 * 16 + n by omega, e _ (by omega),
    show (0xF00F : Word) = (0xF : BitVec 4) ++ ((0 : BitVec 8) ++ (0xF : BitVec 4)) from rfl, BitVec.and_append,
    BitVec.and_append]
  have : ∀ a : BitVec 4, a &&& 0xF = a := by decide
  rw [this, this]
  simp

/-- The same under mask 0xF0FF: the family nibble and the low byte decide (format X). -/
theorem mask_F0FF (f x k : Nat) (hx : x < 16) (hk : k < 256) :
    BitVec.ofNat 16 (f * 4096 + x * 256 + k) &&& (0xF0FF : Word) = BitVec.ofNat 16 (f * 4096 + k) := by
  have e : ∀ z, z < 16 → (BitVec.ofNat 16 (f * 4096 + z * 256 + k) : Word) =
      BitVec.ofNat 4 f ++ (BitVec.ofNat 4 z ++ BitVec.ofNat 8 k) := by
    intro z hz
    apply BitVec.eq_of_toNat_eq
    simp only [toNat_append_add, BitVec.toNat_ofNat]
    omega
  rw [e _ hx, show f * 4096 + k = f * 4096 + 0 * 256 + k by omega, e _ (by omega),
    show (0xF0FF : Word) = (0xF : BitVec 4) ++ ((0 : BitVec 4) ++ (0xFF : BitVec 8)) from rfl, BitVec.and_append,
    BitVec.and_append]
  have h4 : ∀ a : BitVec 4, a &&& 0xF = a := by decide
  have h8 : ∀ a : BitVec 8, a &&& 0xFF = a := by decide
  rw [h4, h8]
  simp

theorem sys (nnn : Addr) : Statement (.sys nnn) := mask_F000 0 _ nnn.isLt

theorem cls : Statement (.cls) := by unfold Statement; decide

theorem ret : Statement (.ret) := by unfold Statement; decide

theorem jp (nnn : Addr) : Statement (.jp nnn) := mask_F000 1 _ nnn.isLt

theorem call (nnn : Addr) : Statement (.call nnn) := mask_F000 2 _ nnn.isLt

theorem seImm (x : Reg) (kk : Byte) : Statement (.seImm x kk) :=
  mask_XKK 3 x _ kk.isLt

theorem sneImm (x : Reg) (kk : Byte) : Statement (.sneImm x kk) :=
  mask_XKK 4 x _ kk.isLt

theorem seReg (x y : Reg) : Statement (.seReg x y) := mask_F00F _ _ _ _ x.isLt y.isLt (by decide)

theorem ldImm (x : Reg) (kk : Byte) : Statement (.ldImm x kk) :=
  mask_XKK 6 x _ kk.isLt

theorem addImm (x : Reg) (kk : Byte) : Statement (.addImm x kk) :=
  mask_XKK 7 x _ kk.isLt

theorem ldReg (x y : Reg) : Statement (.ldReg x y) := mask_F00F _ _ _ _ x.isLt y.isLt (by decide)

theorem orReg (x y : Reg) : Statement (.orReg x y) := mask_F00F _ _ _ _ x.isLt y.isLt (by decide)

theorem andReg (x y : Reg) : Statement (.andReg x y) := mask_F00F _ _ _ _ x.isLt y.isLt (by decide)

theorem xorReg (x y : Reg) : Statement (.xorReg x y) := mask_F00F _ _ _ _ x.isLt y.isLt (by decide)

theorem addReg (x y : Reg) : Statement (.addReg x y) := mask_F00F _ _ _ _ x.isLt y.isLt (by decide)

theorem sub (x y : Reg) : Statement (.sub x y) := mask_F00F _ _ _ _ x.isLt y.isLt (by decide)

theorem shr (x y : Reg) : Statement (.shr x y) := mask_F00F _ _ _ _ x.isLt y.isLt (by decide)

theorem subn (x y : Reg) : Statement (.subn x y) := mask_F00F _ _ _ _ x.isLt y.isLt (by decide)

theorem shl (x y : Reg) : Statement (.shl x y) := mask_F00F _ _ _ _ x.isLt y.isLt (by decide)

theorem sneReg (x y : Reg) : Statement (.sneReg x y) := mask_F00F _ _ _ _ x.isLt y.isLt (by decide)

theorem ldI (nnn : Addr) : Statement (.ldI nnn) := mask_F000 10 _ nnn.isLt

theorem jpV0 (nnn : Addr) : Statement (.jpV0 nnn) := mask_F000 11 _ nnn.isLt

theorem rnd (x : Reg) (kk : Byte) : Statement (.rnd x kk) :=
  mask_XKK 12 x _ kk.isLt

theorem drw (x y : Reg) (n : Fin 16) : Statement (.drw x y n) :=
  mask_XYN 0xD x y _ n.isLt

theorem skp (x : Reg) : Statement (.skp x) := mask_F0FF _ _ _ x.isLt (by decide)

theorem sknp (x : Reg) : Statement (.sknp x) := mask_F0FF _ _ _ x.isLt (by decide)

theorem ldVxDt (x : Reg) : Statement (.ldVxDt x) := mask_F0FF _ _ _ x.isLt (by decide)

theorem ldK (x : Reg) : Statement (.ldK x) := mask_F0FF _ _ _ x.isLt (by decide)

theorem ldDt (x : Reg) : Statement (.ldDt x) := mask_F0FF _ _ _ x.isLt (by decide)

theorem ldSt (x : Reg) : Statement (.ldSt x) := mask_F0FF _ _ _ x.isLt (by decide)

theorem addI (x : Reg) : Statement (.addI x) := mask_F0FF _ _ _ x.isLt (by decide)

theorem ldF (x : Reg) : Statement (.ldF x) := mask_F0FF _ _ _ x.isLt (by decide)

theorem ldB (x : Reg) : Statement (.ldB x) := mask_F0FF _ _ _ x.isLt (by decide)

theorem ldStore (x : Reg) : Statement (.ldStore x) := mask_F0FF _ _ _ x.isLt (by decide)

theorem ldLoad (x : Reg) : Statement (.ldLoad x) := mask_F0FF _ _ _ x.isLt (by decide)

end Sys2Proof.Laws.RowPattern
end

