-- ==== Sys2Proof/Laws/Transact.lean ====
section
/-! SUPPORT. What the host's transactions can do: one inversion lemma for `load` and one for a key event, and the fields a
`reset` keeps. -/

namespace Sys2Proof.Machine

/-- A `load` that is not refused came before the first cycle, and either rejected an image that is too large or stored it
from 0x200 on. -/
theorem loadImage_next_cases (image : List Byte) (s t : State) (h : loadImage image s = .next t) :
    s.started = false ∧
    ((image.length > maxImage ∧ t = rejectImage s) ∨ (image.length ≤ maxImage ∧ t = s.store progBase image)) := by
  unfold loadImage at h
  split at h
  · cases h
  · rename_i hs
    refine ⟨by simpa using hs, ?_⟩
    split at h <;> cases h
    · exact .inl ⟨by assumption, rfl⟩
    · exact .inr ⟨by omega, rfl⟩

/-- A key event completes LD Vx, K when it is a release during the wait, and sets its flag alone otherwise. -/
theorem keyEvent_cases (k : Key) (pressed : Bool) (s : State) :
    (∃ x, s.run = .waitingForKey x ∧ pressed = false ∧ keyEvent k pressed s = resumeWithKey x k s) ∨
    ((∀ x, s.run = .waitingForKey x → pressed = true) ∧ keyEvent k pressed s = s.setKey k pressed) := by
  unfold keyEvent
  split
  · exact .inl ⟨_, by assumption, rfl, rfl⟩
  · exact .inr ⟨fun _ _ => rfl, rfl⟩
  all_goals
    rename_i h
    exact .inr ⟨fun x hx => (nomatch h.symm.trans hx), rfl⟩

@[simp] theorem resetBlock_cfg (s : State) : (resetBlock s).cfg = s.cfg := rfl

@[simp] theorem resetBlock_pending (s : State) : (resetBlock s).pending = s.pending := rfl

@[simp] theorem resetBlock_run (s : State) : (resetBlock s).run = .running := rfl

@[simp] theorem resetBlock_started (s : State) : (resetBlock s).started = false := rfl

@[simp] theorem resetBlock_mem (s : State) : (resetBlock s).mem = [] := rfl

end Sys2Proof.Machine
end

