-- ==== Sys2Proof/Tests/Slice0.lean ====
section
/-! SUPPORT. Tests. Expected results are the hand-written vectors of spec/95_test_vectors.md, named in each docstring, or
words written out from the encodings of R86; witnesses show that the hypotheses of the statements can be met. -/

namespace Sys2Proof.Tests

open Sys2Proof.Machine

/-! ### Well-formedness: the one check refuses its ill-formed terms (R85) -/

theorem test_wf_sys_00E0_refused : (Instr.sys 0x0E0).wellFormed = false := by decide
theorem test_wf_sys_00EE_refused : (Instr.sys 0x0EE).wellFormed = false := by decide
theorem test_wf_sys_00E1_accepted : (Instr.sys 0x0E1).wellFormed = true := by decide

/-! ### Decoding: one word of every row, written out from the encoding column of R86 -/

theorem test_decode_control :
    decode 0b0000000100100011 = some (.sys 0x123) ∧ decode 0b0000000011100000 = some .cls ∧
    decode 0b0000000011101110 = some .ret ∧ decode 0b0001001000110100 = some (.jp 0x234) ∧
    decode 0b0010001100000000 = some (.call 0x300) ∧ decode 0b1011010100000001 = some (.jpV0 0x501) := by decide

theorem test_decode_skip :
    decode 0b0011101000000101 = some (.seImm 0xA 0x05) ∧ decode 0b0100101000010000 = some (.sneImm 0xA 0x10) ∧
    decode 0b0101000100100000 = some (.seReg 1 2) ∧ decode 0b1001000100100000 = some (.sneReg 1 2) := by decide

theorem test_decode_load_and_bitwise :
    decode 0b0110000011101010 = some (.ldImm 0 0xEA) ∧ decode 0b0111111100000001 = some (.addImm 0xF 0x01) ∧
    decode 0b1000000100100000 = some (.ldReg 1 2) ∧ decode 0b1000000100100001 = some (.orReg 1 2) ∧
    decode 0b1000000100100010 = some (.andReg 1 2) ∧ decode 0b1000000100100011 = some (.xorReg 1 2) := by decide

theorem test_decode_arithmetic :
    decode 0b1000000100100100 = some (.addReg 1 2) ∧ decode 0b1000000100100101 = some (.sub 1 2) ∧
    decode 0b1000000100100110 = some (.shr 1 2) ∧ decode 0b1000000100100111 = some (.subn 1 2) ∧
    decode 0b1000000100101110 = some (.shl 1 2) := by decide

theorem test_decode_address_random_display :
    decode 0b1010001100000001 = some (.ldI 0x301) ∧ decode 0b1100000100001111 = some (.rnd 1 0x0F) ∧
    decode 0b1101000100100101 = some (.drw 1 2 5) ∧ decode 0b1111001100011110 = some (.addI 3) ∧
    decode 0b1111001100101001 = some (.ldF 3) := by decide

theorem test_decode_keypad_timers :
    decode 0b1110000110011110 = some (.skp 1) ∧ decode 0b1110000110100001 = some (.sknp 1) ∧
    decode 0b1111001100001010 = some (.ldK 3) ∧ decode 0b1111001000000111 = some (.ldVxDt 2) ∧
    decode 0b1111001000010101 = some (.ldDt 2) ∧ decode 0b1111001000011000 = some (.ldSt 2) := by decide

theorem test_decode_memory :
    decode 0b1111010000110011 = some (.ldB 4) ∧ decode 0b1111010001010101 = some (.ldStore 4) ∧
    decode 0b1111010001100101 = some (.ldLoad 4) := by decide

/-- FD-6 to FD-10 and S8: words that match no row. -/
theorem test_decode_unrecognised :
    decode 0x5121 = none ∧ decode 0x9AB3 = none ∧ decode 0x8128 = none ∧ decode 0xE19F = none ∧ decode 0xF100 = none ∧
    decode 0xFFFF = none := by decide

/-- R61: the byte at the lower address is the high one. -/
theorem test_decode_byte_order : decodeBytes 0x12 0x34 = some (.jp 0x234) := by decide

/-! ### One step on a small state -/

/-- The state right after reset. -/
abbrev start : State := State.reset

/-- Whether a step ends in a next state that `check` accepts. -/
def ends (o : Host.Outcome State Fault Refusal) (check : State → Bool) : Bool :=
  match o with
  | .next t => check t
  | .fault _ => false
  | .refused _ => false

/-- One step of the word `w`, placed where `s` fetches. -/
def after (w : Nat) (s : State) (check : State → Bool) : Bool := ends (step (s.withFetchWord 16 w)) check

/-- The run state of a block halted with the given record. -/
def H (kind : ErrorKind) (pc opcode : Word) : RunState := .halted { kind := kind, pc := pc, opcode := some opcode }

/-- The state with two registers set. -/
def two (x : Reg) (a : Byte) (y : Reg) (b : Byte) : State := (start.setReg x a).setReg y b

/-- CF-12, under both settings. -/
theorem test_sys :
    after 0x0123 start (fun t => t.run = H .sysUnsupported 0x200 0x0123 && t.pc = 0x200) = true ∧
    after 0x0123 { start with cfg := { start.cfg with sysMode := .ignore } }
      (fun t => t.run = .running && t.pc = 0x202) = true := by decide

/-- CF-1. -/
theorem test_jp : after 0x1234 start (fun t => t.pc = 0x234) = true := by decide

/-- CF-11: always V0, whatever op[11:8] holds. -/
theorem test_jpV0 : after 0xB500 (two 0 0x02 5 0x40) (fun t => t.pc = 0x502) = true := by decide

/-- CF-10: the target goes above memory without wrap. -/
theorem test_jpV0_high : after 0xBFFF (start.setReg 0 0xFF) (fun t => t.pc = 0x10FE) = true := by decide

/-- CF-7: the 16th call succeeds. -/
theorem test_call : after 0x2300 { start with pc := 0x2F0, sp := 15 }
    (fun t => t.stack[15] = 0x2F2 && t.sp = 16 && t.pc = 0x300 && t.run = .running) = true := by decide

/-- CF-6: the 17th does not. -/
theorem test_call_overflow : after 0x2300 { start with pc := 0x2F0, sp := 16 }
    (fun t => t.run = H .stackOverflow 0x2F0 0x2300 && t.sp = 16 && t.pc = 0x2F0) = true := by decide

/-- CF-4. -/
theorem test_ret : after 0x00EE { start with pc := 0x300, sp := 1, stack := start.stack.set 0 0x206 }
    (fun t => t.pc = 0x206 && t.sp = 0 && t.stack[0] = 0x206) = true := by decide

/-- CF-5. -/
theorem test_ret_underflow :
    after 0x00EE start (fun t => t.run = H .stackUnderflow 0x200 0x00EE && t.pc = 0x200) = true := by decide

/-- SK-1 and SK-2. -/
theorem test_seImm : after 0x3005 { start.setReg 0 5 with pc := 0x208 } (fun t => t.pc = 0x20C) = true ∧
    after 0x3005 { start.setReg 0 4 with pc := 0x208 } (fun t => t.pc = 0x20A) = true := by decide

/-- SK-3 and SK-4. -/
theorem test_sneImm : after 0x4A10 (start.setReg 0xA 0x11) (fun t => t.pc = 0x204) = true ∧
    after 0x4A10 (start.setReg 0xA 0x10) (fun t => t.pc = 0x202) = true := by decide

/-- SK-5 and SK-6. -/
theorem test_seReg : after 0x5120 (two 1 7 2 7) (fun t => t.pc = 0x204) = true ∧
    after 0x5120 (two 1 7 2 8) (fun t => t.pc = 0x202) = true := by decide

/-- SK-8 and SK-9. -/
theorem test_sneReg : after 0x9120 (two 1 7 2 8) (fun t => t.pc = 0x204) = true ∧
    after 0x9110 (two 1 7 2 8) (fun t => t.pc = 0x202) = true := by decide

/-- SK-13, SK-14 and SK-17. -/
theorem test_skp : after 0xE19E ((start.setReg 1 5).setKey 5 true) (fun t => t.pc = 0x204) = true ∧
    after 0xE19E (start.setReg 1 5) (fun t => t.pc = 0x202) = true ∧
    after 0xE19E (start.setReg 1 0x10) (fun t => t.run = H .badKey 0x200 0xE19E) = true := by decide

/-- SK-15, SK-16 and SK-18. -/
theorem test_sknp : after 0xE1A1 (start.setReg 1 5) (fun t => t.pc = 0x204) = true ∧
    after 0xE1A1 ((start.setReg 1 5).setKey 5 true) (fun t => t.pc = 0x202) = true ∧
    after 0xE1A1 (start.setReg 1 0xFF) (fun t => t.run = H .badKey 0x200 0xE1A1) = true := by decide

/-- AL-1. -/
theorem test_ldImm : after 0x60EA start (fun t => t.reg 0 = 0xEA && t.pc = 0x202) = true := by decide

/-- AL-3 and AL-4: VF is no flag here, but can be the destination. -/
theorem test_addImm : after 0x7001 (two 0 0xFF 0xF 7) (fun t => t.reg 0 = 0 && t.reg 0xF = 7) = true ∧
    after 0x7F01 (start.setReg 0xF 3) (fun t => t.reg 0xF = 4) = true := by decide

/-- AL-5. -/
theorem test_ldReg : after 0x8120 (start.setReg 2 0x33) (fun t => t.reg 1 = 0x33 && t.reg 2 = 0x33) = true := by decide

/-- AL-6: VF is left alone. -/
theorem test_orReg : after 0x8121 ((two 1 0x0F 2 0xF0).setReg 0xF 5)
    (fun t => t.reg 1 = 0xFF && t.reg 2 = 0xF0 && t.reg 0xF = 5) = true := by decide

/-- AL-7. -/
theorem test_andReg : after 0x8122 (two 1 0x3C 2 0x0F) (fun t => t.reg 1 = 0x0C && t.reg 2 = 0x0F) = true := by decide

/-- AL-8 and AL-9. -/
theorem test_xorReg : after 0x8123 (two 1 0xFF 2 0x0F) (fun t => t.reg 1 = 0xF0) = true ∧
    after 0x8113 (start.setReg 1 0x5A) (fun t => t.reg 1 = 0) = true := by decide

/-- AL-11 and AL-13: the flag is written last. -/
theorem test_addReg : after 0x8014 (two 0 0xFF 1 0xFF) (fun t => t.reg 0 = 0xFE && t.reg 0xF = 1) = true ∧
    after 0x8F14 (two 0xF 0xFF 1 0x01) (fun t => t.reg 0xF = 1) = true := by decide

/-- AL-14: y = F reads the old VF. -/
theorem test_addReg_from_VF :
    after 0x80F4 (two 0 0x01 0xF 0x01) (fun t => t.reg 0 = 2 && t.reg 0xF = 0) = true := by decide

/-- AL-15 and AL-16: equal operands give VF = 0. -/
theorem test_sub : after 0x8015 (two 0 0x10 1 0x01) (fun t => t.reg 0 = 0x0F && t.reg 0xF = 1) = true ∧
    after 0x8015 (two 0 7 1 7) (fun t => t.reg 0 = 0 && t.reg 0xF = 0) = true := by decide

/-- AL-17: the borrow case. -/
theorem test_sub_borrow : after 0x8015 (two 0 0 1 1) (fun t => t.reg 0 = 0xFF && t.reg 0xF = 0) = true := by decide

/-- AL-19 and AL-20. -/
theorem test_subn : after 0x8017 (two 0 0x01 1 0x10) (fun t => t.reg 0 = 0x0F && t.reg 0xF = 1) = true ∧
    after 0x8017 (two 0 2 1 1) (fun t => t.reg 0 = 0xFF && t.reg 0xF = 0) = true := by decide

/-- The same two registers under SHIFT_QUIRK = FromVy. -/
def twoFromVy (x : Reg) (a : Byte) (y : Reg) (b : Byte) : State :=
  { two x a y b with cfg := { start.cfg with shiftQuirk := .fromVy } }

/-- AL-23, both settings. -/
theorem test_shr : after 0x8126 (two 1 4 2 3) (fun t => t.reg 1 = 2 && t.reg 0xF = 0) = true ∧
    after 0x8126 (twoFromVy 1 4 2 3) (fun t => t.reg 1 = 1 && t.reg 0xF = 1 && t.reg 2 = 3) = true := by decide

/-- AL-27, both settings. -/
theorem test_shl : after 0x812E (two 1 1 2 0x80) (fun t => t.reg 1 = 2 && t.reg 0xF = 0) = true ∧
    after 0x812E (twoFromVy 1 1 2 0x80) (fun t => t.reg 1 = 0 && t.reg 0xF = 1 && t.reg 2 = 0x80) = true := by decide

/-- AL-28: x = F, the flag wins. -/
theorem test_shl_VF : after 0x8F0E (start.setReg 0xF 0x81) (fun t => t.reg 0xF = 1) = true := by decide

/-- AR-1. -/
theorem test_ldI : after 0xA300 start (fun t => t.i = 0x300 && t.pc = 0x202) = true := by decide

/-- AR-4 and AR-5: the flag of a sum above 0xFFF. -/
theorem test_addI : after 0xF01E { start.setReg 0 1 with i := 0xFFF } (fun t => t.i = 0x1000 && t.reg 0xF = 1) = true ∧
    after 0xF01E { start.setReg 0 0x0F with i := 0xFF0 } (fun t => t.i = 0xFFF && t.reg 0xF = 0) = true := by decide

/-- AR-6 and AR-7: the wrap at 2^16; x = F is read before VF is written. -/
theorem test_addI_wrap : after 0xF01E { start.setReg 0 1 with i := 0xFFFF } (fun t => t.i = 0 && t.reg 0xF = 1) = true ∧
    after 0xFF1E { start.setReg 0xF 0x10 with i := 0xFF0 } (fun t => t.i = 0x1000 && t.reg 0xF = 1) = true := by decide

/-- S7 and AR-9: the glyph of A, and the low nibble alone. -/
theorem test_ldF :
    after 0xF029 (start.setReg 0 0x0A)
      (fun t => t.i = 0x032 && t.bytes 0x032 5 == [0xF0, 0x90, 0xF0, 0x90, 0x90]) = true ∧
    after 0xF029 (start.setReg 0 0x1A) (fun t => t.i = 0x032) = true := by decide

/-- AR-12: the draw of the cycle, masked. -/
theorem test_rnd : ends (step { start.withFetchWord 16 0xC10F with pending := [.cycle 0xA7] })
    (fun t => t.reg 1 = 0x07 && t.pc = 0x202 && t.draws = 1) = true := by decide

/-- DS-13, with a set pixel before. -/
theorem test_cls : after 0x00E0 { start with fb := Framebuffer.flip start.fb 63 31 }
    (fun t => !Framebuffer.pixel t.fb 63 31 && t.dirty && t.pc = 0x202) = true := by decide

/-- DS-7: a collision clears its pixel, the sprite's other pixels are set. -/
theorem test_drw_collision :
    after 0xD121 ({ start with i := 0x300, fb := Framebuffer.flip start.fb 2 0 }.store 0x300 [0xFF])
      (fun t => Framebuffer.pixel t.fb 0 0 && !Framebuffer.pixel t.fb 2 0 && Framebuffer.pixel t.fb 7 0 &&
        !Framebuffer.pixel t.fb 8 0 && t.reg 0xF = 1 && t.dirty) = true := by decide

/-- DS-4 and DS-5 in one sprite: both wraps. -/
theorem test_drw_wrap :
    after 0xD122 ({ two 1 63 2 31 with i := 0x300 }.store 0x300 [0xC0, 0x80])
      (fun t => Framebuffer.pixel t.fb 63 31 && Framebuffer.pixel t.fb 0 31 && Framebuffer.pixel t.fb 63 0 &&
        !Framebuffer.pixel t.fb 0 0 && t.reg 0xF = 0) = true := by decide

/-- KW-1 and KW-5: the wait is entered, then completed by a release. -/
theorem test_ldK : after 0xF30A { start with pc := 0x220 }
    (fun t => t.run = .waitingForKey 3 && t.pc = 0x220 && t.reg 3 = 0 &&
      ends (transact (.keyEvent 0xB false) t) (fun u => u.reg 3 = 0x0B && u.pc = 0x222 && u.run = .running)) = true := by
  decide

/-- TM-1. -/
theorem test_ldVxDt : after 0xF207 { start with dt := 0x3C } (fun t => t.reg 2 = 0x3C && t.pc = 0x202) = true := by
  decide

/-- TM-2. -/
theorem test_ldDt : after 0xF015 (start.setReg 0 0xC8) (fun t => t.dt = 0xC8 && t.st = 0) = true := by decide

/-- TM-3. -/
theorem test_ldSt : after 0xF118 (start.setReg 1 0x1E) (fun t => t.st = 0x1E && t.dt = 0) = true := by decide

/-- S6 and MT-5: the digits, at the end of memory too. -/
theorem test_ldB :
    after 0xF033 { start.setReg 0 0xEA with i := 0x300 } (fun t => t.bytes 0x300 3 == [2, 3, 4]) = true ∧
    after 0xF033 { start.setReg 0 0x64 with i := 0xFFD } (fun t => t.bytes 0xFFD 3 == [1, 0, 0]) = true := by decide

/-- MT-6: one byte too far, and nothing is written. -/
theorem test_ldB_out_of_range : after 0xF033 { start.setReg 0 0xEA with i := 0xFFE }
    (fun t => t.run = H .outOfRange 0x200 0xF033 && t.byte 0xFFE = 0) = true := by decide

/-- MT-7: I is unchanged. -/
theorem test_ldStore : after 0xF255 { (two 0 1 1 2).setReg 2 3 with i := 0x300 }
    (fun t => t.bytes 0x300 4 == [1, 2, 3, 0] && t.i = 0x300) = true := by decide

/-- MT-11: I = 0xFFFF does not wrap to 0. -/
theorem test_ldStore_no_wrap : after 0xF055 { start.setReg 0 1 with i := 0xFFFF }
    (fun t => t.run = H .outOfRange 0x200 0xF055) = true := by decide

/-- MT-12, with V3 kept. -/
theorem test_ldLoad : after 0xF265 ({ start.setReg 3 9 with i := 0x300 }.store 0x300 [2, 3, 4, 5])
    (fun t => t.reg 0 = 2 && t.reg 1 = 3 && t.reg 2 = 4 && t.reg 3 = 9 && t.i = 0x300) = true := by decide

/-! ### The host's transactions and errors of a fetch -/

/-- FD-1: the range check precedes the PC check. -/
theorem test_fetch_out_of_range : ends (step { start with pc := 0xFFF })
    (fun t => t.run = .halted { kind := .outOfRange, pc := 0xFFF, opcode := none }) = true := by decide

/-- FD-5, both settings. -/
theorem test_bad_pc :
    ends (step { start with pc := 0x1FE })
      (fun t => t.run = .halted { kind := .badPc, pc := 0x1FE, opcode := none }) = true ∧
    ends (step { start with pc := 0x1FE, cfg := { start.cfg with pcCheck := .permissive } })
      (fun t => t.run = H .sysUnsupported 0x1FE 0x0000) = true := by decide

/-- S8. -/
theorem test_decode_error : after 0xFFFF start (fun t => t.run = H .decodeError 0x200 0xFFFF && t.pc = 0x200) = true := by
  decide

/-- TM-5 and TM-6: timers stop at 0. -/
theorem test_tick : (tick { start with dt := 2, st := 1 }).dt = 1 ∧ (tick { start with dt := 2, st := 1 }).st = 0 ∧
    (tick start).dt = 0 ∧ soundStops { start with st := 1 } (tick { start with st := 1 }) = true := by decide

/-- R261: a load that raised nothing answers no record; in a halted block this is the model's choice (log 11). -/
theorem test_load_answers :
    respond (.load [0x12]) start = .loadDone none ∧
    respond (.load [0x12])
      { start with run := .halted { kind := .programTooLarge, pc := 0x200, opcode := none } } = .loadDone none := by decide

/-- R305: byte j of an image goes to 0x200 + j, and the window closes with the first cycle. -/
theorem test_load : ends (transact (.load [0x12, 0x00]) start) (fun t => t.bytes 0x200 2 == [0x12, 0x00]) = true ∧
    ends (transact (.load [0x12, 0x00]) { start with started := true }) (fun _ => true) = false := by decide

/-- R282: 1000 ms are 60 ticks, and 120 cycles at 120 Hz (S9). -/
theorem test_schedule : ticksDue 1000 = 60 ∧ strobesDue 120 1000 1000 = 120 := by decide

/-- MT-15: the stored word is the next one fetched. -/
theorem test_self_modifying :
    ends (step ({ two 0 0x12 1 0x00 with i := 0x202 }.withFetchWord 16 0xF155))
      (fun t => ends (step t) (fun u => u.pc = 0x200 && u.run = .running)) = true := by decide

/-! ### Witnesses: a concrete state and operands for the hypotheses of each statement -/

/-- `start` with one memory word placed and the block mid-run: one call deep, the load window closed. -/
def midRun (w : Nat) : State :=
  { start.withFetchWord 16 w with sp := 1, stack := start.stack.set 0 0x206, started := true }

/-- A block halted by an unrecognised word. -/
def haltedBlock : State := { start with run := H .decodeError 0x200 0xFFFF, started := true }

/-- A block waiting for a key for V3. -/
def waitingBlock : State := { start with run := .waitingForKey 3, started := true }

theorem witness_DecodeOfEncodeIsIdentity :
    (Instr.sys 0xFFF).wellFormed = true ∧ (Instr.drw 0xF 0xF 0xF).wellFormed = true := by decide

theorem witness_EncodeOfDecodeIsIdentity : decode 0xFF65 = some (.ldLoad 0xF) := by decide

theorem witness_DecodeFollowsMaskAndMatch :
    decode 0xDFFF = some (.drw 0xF 0xF 0xF) ∧ (0x00E0 : Word) &&& (Instr.sys 0).pattern.1 = (Instr.sys 0).pattern.2 := by
  decide

theorem witness_UnrecognisedWordsAreTheListedOnes :
    decode 0x5001 = none ∧ decode 0x800F = none ∧ decode 0x9FFF = none ∧ decode 0xE09F = none ∧ decode 0xF066 = none := by
  decide

/-- Both clauses, at the highest PC a fetch accepts. -/
theorem witness_StepRunsDecodedInstruction :
    ∃ s : State, s.run = .running ∧ s.pc.toNat ≤ 0xFFE ∧
      (s.cfg.pcCheck = .strict → s.pc.toNat % 2 = 0 ∧ 0x200 ≤ s.pc.toNat) ∧
      decode (BitVec.ofNat 16 ((s.byte s.pc.toNat).toNat * 256 + (s.byte (s.pc.toNat + 1)).toNat)) = some (.jp 0x234) ∧
      s.pending = [] :=
  ⟨{ start with pc := 0xFFE }.withFetchWord 16 0x1234, by decide⟩

theorem witness_StepRunsDecodedInstruction_cycle :
    ∃ s : State, s.run = .running ∧ s.pc.toNat ≤ 0xFFE ∧
      (s.cfg.pcCheck = .strict → s.pc.toNat % 2 = 0 ∧ 0x200 ≤ s.pc.toNat) ∧
      decode (BitVec.ofNat 16 ((s.byte s.pc.toNat).toNat * 256 + (s.byte (s.pc.toNat + 1)).toNat)) = some (.rnd 1 0x0F) ∧
      s.pending = [.cycle 0xA7, .tick] :=
  ⟨{ start.withFetchWord 16 0xC10F with pending := [.cycle 0xA7, .tick] }, by decide⟩

theorem witness_PlacedWordRunsNext :
    Memory.wf start.cfg start.mem = true ∧ decodeTableWord 16 0xD125 = some (.drw 1 2 5) := by decide

theorem witness_FetchOutOfRangeRaises :
    { start with pc := 0xFFF }.run = .running ∧ { start with pc := 0xFFF }.pc.toNat > 0xFFE := by decide

/-- Odd, too low, and permissive. -/
theorem witness_BadPcRaisesUnderStrictOnly :
    ∃ s t u : State, s.run = .running ∧ s.pc.toNat ≤ 0xFFE ∧ s.cfg.pcCheck = .strict ∧ s.pc.toNat % 2 = 1 ∧
      t.run = .running ∧ t.cfg.pcCheck = .strict ∧ t.pc.toNat < 0x200 ∧
      u.run = .running ∧ u.pc.toNat ≤ 0xFFE ∧ u.cfg.pcCheck = .permissive :=
  ⟨{ start with pc := 0xFFD }, { start with pc := 0x1FE },
    { start with pc := 0x203, cfg := { start.cfg with pcCheck := .permissive } }, by decide⟩

theorem witness_UnrecognisedWordRaisesDecodeError :
    (start.withFetchWord 16 0xFFFF).run = .running ∧ (start.withFetchWord 16 0xFFFF).wordAtPc = 0xFFFF ∧
      FetchOk (start.withFetchWord 16 0xFFFF) ∧ decode 0xFFFF = none := by decide

theorem witness_CycleOutsideRunningChangesNothing :
    waitingBlock.run = .waitingForKey 3 ∧ haltedBlock.run = H .decodeError 0x200 0xFFFF := by decide

theorem witness_HaltedIsLeftOnlyByReset :
    haltedBlock.run = H .decodeError 0x200 0xFFFF ∧ Transaction.tick ≠ .reset ∧
      transact .tick haltedBlock = .next (tick haltedBlock) := ⟨rfl, by decide, rfl⟩

/-- A cycle that halts, and an image one byte too long. -/
theorem witness_ErrorsArePrecise :
    ends (cycle none start) (fun t => t.run = H .sysUnsupported 0x200 0x0000) = true ∧
    ∃ t, loadImage (List.replicate 3585 0) start = .next t ∧
      t.run = .halted { kind := .programTooLarge, pc := 0x200, opcode := none } := by
  refine ⟨by decide, { start with run := .halted { kind := .programTooLarge, pc := 0x200, opcode := none } }, ?_, rfl⟩
  have h : (List.replicate 3585 (0 : Byte)).length > maxImage := by rw [List.length_replicate]; decide
  unfold loadImage
  rw [if_neg (by decide), if_pos h]
  rfl

/-- A record with the fetched word, and one of a failed fetch. -/
theorem witness_ErrorRecordHoldsTheFetchedWord :
    ends (cycle none start) (fun t => t.run = H .sysUnsupported 0x200 0x0000) = true ∧
    ends (cycle none { start with pc := 0xFFF })
      (fun t => t.run = .halted { kind := .outOfRange, pc := 0xFFF, opcode := none }) = true := by decide

theorem witness_RunStateAfterACycle :
    ends (cycle none (midRun 0x6001)) (fun t => t.run.error? = none && t.run = .running) = true ∧
    ends (cycle none (midRun 0xF30A)) (fun t => t.run.error? = none && t.run = .waitingForKey 3) = true := by decide

theorem witness_RedrawOutputIsClsOrDrw :
    (cycleResult none (midRun 0x00E0)).redraw = true ∧ (cycleResult none (midRun 0x6001)).redraw = false := by decide

theorem witness_InvariantAtReset : GlyphAFixed defaultConfig := by unfold GlyphAFixed; decide

/-- The invariant holds mid-run, not only at reset. -/
theorem witness_EveryStepKeepsTheInvariant : (midRun 0x2300).Inv ∧ ∃ t, step (midRun 0x2300) = .next t where
  left := {
    memory := by decide
    glyphA := by unfold GlyphAFixed; decide
    pcBound := by decide
    stackBound := by decide
    stackAligned := by decide
    waitPc := fun _ h => nomatch h
    haltRecord := fun _ h => nomatch h
    beforeStart := fun h => nomatch h }
  right := ⟨_, rfl⟩

theorem witness_SysFaultsOrIsIgnored :
    start.cfg.sysMode = .fault ∧ { start.cfg with sysMode := .ignore }.sysMode = .ignore := by decide

theorem witness_CallPushesOrOverflows :
    { start with sp := 15 }.sp.val < 16 ∧ { start with sp := 16 }.sp.val = 16 := by decide

theorem witness_RetPopsOrUnderflows :
    { start with sp := 16 }.sp.val = (15 : Fin 16).val + 1 ∧ { start with sp := 1 }.sp.val = (0 : Fin 16).val + 1 ∧
      start.sp.val = 0 := by decide

theorem witness_RetReturnsBehindItsCall :
    ∃ t w : State, exec (.call 0x300) start = .next t ∧ t.run.error? = none ∧ start.sp.val = (0 : Fin 16).val ∧
      exec .ret t = .next w :=
  ⟨_, _, rfl, rfl, rfl, rfl⟩

/-- The lowest and the highest key. -/
theorem witness_RegisterSkips :
    (start.reg 1).toNat = (0 : Key).val ∧ ((start.setReg 1 0x0F).reg 1).toNat = (15 : Key).val := by decide

/-- The highest key, and the lowest value that names none. -/
theorem witness_KeySkipsOrBadKey :
    ((start.setReg 1 0x0F).reg 1).toNat = (15 : Key).val ∧ ((start.setReg 1 0x10).reg 1).toNat > 0xF := by decide

/-- A source that meets both hypotheses, under either setting. -/
theorem witness_ShiftsCaptureTheBitShiftedOut :
    (start.cfg.shiftQuirk = .inPlace ∧ (two 1 4 2 3).reg 1 = 4) ∧
    ((twoFromVy 1 4 2 3).cfg.shiftQuirk = .fromVy ∧ (twoFromVy 1 4 2 3).reg 2 = 3) := by decide

theorem witness_OnlyFlagWritersAndDestinationsChangeVF :
    ends (exec (.addReg 0 1) (two 0 0xFF 1 1)) (fun t => t.reg vF != (two 0 0xFF 1 1).reg vF) = true := by decide

theorem witness_OnlyThreeInstructionsChangeI :
    ends (exec (.ldI 0x300) start) (fun t => t.i != start.i) = true := by decide

theorem witness_RndMasksTheDraw : { start with rnd := some 0xA7 }.rnd = some 0xA7 := rfl

theorem witness_ClsClearsTheFramebuffer :
    (midRun 0x00E0).run = .running ∧ (midRun 0x00E0).nextInstr? = some .cls := by decide

/-- The last 15 bytes of memory; a pixel the sprite covers and one it does not. -/
theorem witness_DrwXorsTheSprite :
    InRange { start with i := 0xFF1 }.i.toNat (15 : Fin 16).val ∧
    SpriteCovers { start with i := 0x032 } 0 0 5 3 4 ∧ ¬ SpriteCovers { start with i := 0x032 } 0 0 0 3 4 := by
  refine ⟨by decide, ⟨4, 3, by decide⟩, ?_⟩
  rintro ⟨r, _, h, _⟩
  exact absurd h (Nat.not_lt_zero r)

theorem witness_DrwOutOfRangeRaises :
    0 < (3 : Fin 16).val ∧ { start with i := 0xFFE }.i.toNat + (3 : Fin 16).val - 1 > 0xFFF := by decide

/-- Two draws of glyph A on an empty framebuffer; the second starts in the state the first leaves. -/
theorem witness_DrawingTwiceRestoresTheFramebuffer :
    ∃ t w : State, InRange { start with i := 0x032 }.i.toNat (5 : Fin 16).val ∧
      exec (.drw 1 2 5) { start with i := 0x032 } = .next t ∧ t.i = { start with i := 0x032 }.i ∧
      t.reg 1 = start.reg 1 ∧ t.reg 2 = start.reg 2 ∧
      (∀ r, r < (5 : Fin 16).val → t.byte (0x032 + r) = start.byte (0x032 + r)) ∧ exec (.drw 1 2 5) t = .next w :=
  ⟨_, _, by decide, rfl, rfl, rfl, rfl, fun _ _ => rfl, rfl⟩

/-- The same two draws, of a sprite with a set bit. -/
theorem witness_SecondDrawAlwaysCollides :
    ∃ t w : State, InRange { start with i := 0x032 }.i.toNat (5 : Fin 16).val ∧
      exec (.drw 1 2 5) { start with i := 0x032 } = .next t ∧ t.i = { start with i := 0x032 }.i ∧
      t.reg 1 = start.reg 1 ∧ t.reg 2 = start.reg 2 ∧
      (∀ r, r < (5 : Fin 16).val → t.byte (0x032 + r) = start.byte (0x032 + r)) ∧ exec (.drw 1 2 5) t = .next w ∧
      ∃ px py, SpriteCovers { start with i := 0x032 } 1 2 5 px py :=
  ⟨_, _, by decide, rfl, rfl, rfl, rfl, fun _ _ => rfl, rfl, 0, 0, 0, 0, by decide⟩

theorem witness_OnlyClsAndDrwWriteTheFramebuffer :
    ends (exec .cls start) (fun t => t.dirty != start.dirty) = true := by decide

theorem witness_KeyEvents : waitingBlock.run = .waitingForKey 3 ∧ start.run = .running := by decide

theorem witness_DelayTimerCountsTheTicksOfASchedule :
    NeverWritesDt [.tick, .cycle 0, .keyEvent 1 true, .tick] { start with dt := 1 } ∧
    ∃ t, transactAll [.tick, .cycle 0, .keyEvent 1 true, .tick] { start with dt := 1 } = .next t := by
  refine ⟨⟨by simp, by simp, ?_⟩, _, rfl⟩
  rintro _ ⟨⟩
  refine ⟨by simp, ?_, ?_⟩
  · intro _ _ x
    have h : (tick { start with dt := 1 }).nextInstr? = some (.sys 0) := by decide
    show (tick { start with dt := 1 }).nextInstr? ≠ _
    rw [h]
    simp
  rintro _ ⟨⟩
  refine ⟨by simp, by simp, ?_⟩
  rintro _ ⟨⟩
  exact ⟨by simp, by simp, fun _ _ => trivial⟩

/-- The last address that fits and the first that does not, for each of the three transfers. -/
theorem witness_BcdStoresDecimalDigits :
    Memory.wf start.cfg start.mem = true ∧ { start with i := 0xFFD }.i.toNat + 2 ≤ 0xFFF ∧
      { start with i := 0xFFE }.i.toNat + 2 > 0xFFF := by decide

theorem witness_StoreCopiesRegistersToMemory :
    Memory.wf start.cfg start.mem = true ∧ { start with i := 0xFF0 }.i.toNat + (15 : Reg).val ≤ 0xFFF ∧
      { start with i := 0xFF1 }.i.toNat + (15 : Reg).val > 0xFFF := by decide

theorem witness_LoadCopiesMemoryToRegisters :
    { start with i := 0xFFF }.i.toNat + (0 : Reg).val ≤ 0xFFF ∧
      { start with i := 0xFFFF }.i.toNat + (0 : Reg).val > 0xFFF := by decide

theorem witness_OnlyTwoInstructionsWriteMemory :
    Memory.wf start.cfg start.mem = true ∧
    ends (exec (.ldStore 0) { start.setReg 0 1 with i := 0x300 }) (fun t => t.byte 0x300 != start.byte 0x300) = true := by
  decide

/-- Fx55 over both bytes of the word at 0x202. -/
theorem witness_StoredCodeIsFetched :
    ∃ s t : State, Memory.wf s.cfg s.mem = true ∧ exec (.ldStore 1) s = .next t ∧ t.Healthy ∧ t.pc.toNat ≤ 0xFFE ∧
      t.pc.toNat % 2 = 0 ∧ 0x200 ≤ t.pc.toNat ∧ ByteAfterStore 1 s t.pc.toNat 0x12 ∧
      ByteAfterStore 1 s (t.pc.toNat + 1) 0x34 := by
  refine ⟨{ two 0 0x12 1 0x34 with i := 0x202 }, _, by decide, rfl, rfl, by decide, by decide, by decide,
    ⟨by decide, ?_⟩, ⟨by decide, ?_⟩⟩ <;> exact fun h => absurd h (by decide)

/-- Fx33 whose last digit is the first byte of the word at 0x202, the second byte being old. -/
theorem witness_StoredCodeIsFetched_bcd :
    ∃ s t : State, Memory.wf s.cfg s.mem = true ∧ exec (.ldB 0) s = .next t ∧ t.Healthy ∧ t.pc.toNat ≤ 0xFFE ∧
      t.pc.toNat % 2 = 0 ∧ 0x200 ≤ t.pc.toNat ∧ ByteAfterBcd 0 s t.pc.toNat 4 ∧
      ByteAfterBcd 0 s (t.pc.toNat + 1) 0 := by
  refine ⟨{ start.setReg 0 0xEA with i := 0x200 }, _, by decide, rfl, rfl, by decide, by decide, by decide,
    ⟨by decide, by decide, by decide, fun h => absurd h (by decide)⟩,
    ⟨by decide, by decide, by decide, fun _ => rfl⟩⟩

theorem witness_CanonicalMemoriesAreEqual :
    Memory.wf start.cfg (Memory.write start.cfg [(0x300, 1)] 0x200 2) = true ∧
    Memory.wf start.cfg (Memory.write start.cfg [(0x200, 2)] 0x300 1) = true := by decide

/-- The longest image, one byte more, and the closed window. -/
theorem witness_LoadTakesAnImageBeforeTheFirstCycle :
    Memory.wf start.cfg start.mem = true ∧ start.started = false ∧ start.run = .running ∧
    (List.replicate 3584 (0 : Byte)).length ≤ 3584 ∧ (List.replicate 3585 (0 : Byte)).length > 3584 ∧
    haltedBlock.started = true := by
  rw [List.length_replicate, List.length_replicate]
  decide

theorem witness_HostNeverMutatesTheCore :
    transact (.keyEvent 2 true) waitingBlock = .next (waitingBlock.setKey 2 true) ∧
    transact .tick waitingBlock = .next (tick waitingBlock) := ⟨rfl, rfl⟩

theorem witness_InstructionsLeaveTheHostSideAlone :
    ends (exec (.call 0x300) start) (fun t => t.sp != start.sp) = true := by decide

theorem witness_ProgramsCannotObserveSoundTimerOrDirty : ∃ t, exec (.ldVxDt 1) start = .next t := ⟨_, rfl⟩

/-- A stack that differs from the state's own only at and above SP. -/
theorem witness_StaleStackEntriesAreUnobservable :
    (∀ j : Fin 16, j.val < (midRun 0x00EE).sp.val →
      ((midRun 0x00EE).stack.set 1 0xFFFF)[j.val] = (midRun 0x00EE).stack[j.val]) ∧
    ∃ t, exec .ret (midRun 0x00EE) = .next t := ⟨by decide, _, rfl⟩

theorem witness_TransactionsIgnoreTheSchedule : ∃ t, transact (.cycle 0) (midRun 0x6001) = .next t := ⟨_, rfl⟩

end Sys2Proof.Tests
end

/-! PROOFS. Family 00_scope.md: the invariant at reset (O18), the invariant under every step (O19), and the random
draw (O35). -/

namespace Sys2Proof.Machine

/-! ### The random draw (R13, R173) -/

@[simp] theorem State.reg_consumeDraw (s : State) (r : Reg) : s.consumeDraw.reg r = s.reg r := rfl

/-- A cycle that was given a draw draws that byte. -/
theorem State.draw8_of_rnd {s : State} {b : Byte} (h : s.rnd = some b) : s.draw8 = b := by
  simp [State.draw8, h]

/-- Settles O35: the draw is `draw8`, and RND is one register write after one consumed draw. -/
theorem rndMasksTheDraw : Obligations.RndMasksTheDraw := by
  intro s x kk
  refine ⟨_, s.draw8, rfl, fun b hb => State.draw8_of_rnd hb, fun r => ?_, rfl, fun a => rfl⟩
  simp

/-! ### The invariant after reset (R12, R300) -/

/-- The default FONT_ROM holds the source's glyph A (R12, R43). -/
theorem glyphAFixed_defaultConfig : GlyphAFixed defaultConfig := ⟨rfl, rfl, rfl, rfl, rfl⟩

/-- The reset state of any configuration with glyph A meets the invariant: memory is unwritten, PC is 0x200, the stack
is empty and the block runs. -/
theorem State.inv_resetWith {c : Config} (hc : GlyphAFixed c) : (State.resetWith c).Inv where
  memory := State.wf_resetWith c
  glyphA := hc
  pcBound := (by decide : (0x200 : Word).toNat ≤ 0x10FE)
  stackBound _ hj := absurd hj (Nat.not_lt_zero _)
  stackAligned _ _ hj := absurd hj (Nat.not_lt_zero _)
  waitPc _ hx := nomatch hx
  haltRecord _ he := nomatch he
  beforeStart _ := ⟨rfl, .inl rfl⟩

/-- Settles O18, as the reset state of a configuration with glyph A, which the default one has. -/
theorem invariantAtReset : Obligations.InvariantAtReset :=
  ⟨State.inv_resetWith glyphAFixed_defaultConfig, fun _ hc => State.inv_resetWith hc⟩

/-! ### What the invariant does not read -/

/-- The invariant does not read the timers, the redraw flag, the keys, the schedule or the cycle's draw. -/
theorem State.Inv.withHostFields {s : State} (hs : s.Inv) {dt st : Byte} {dirty : Bool} {key : Vector Bool 16}
    {pending : List Transaction} {rnd : Option Byte} :
    { s with dt := dt, st := st, dirty := dirty, key := key, pending := pending, rnd := rnd }.Inv :=
  ⟨hs.memory, hs.glyphA, hs.pcBound, hs.stackBound, hs.stackAligned, hs.waitPc, hs.haltRecord, hs.beforeStart⟩

/-- Closing the `load` window keeps the invariant (R305). -/
theorem State.Inv.withStarted {s : State} (hs : s.Inv) : { s with started := true }.Inv :=
  ⟨hs.memory, hs.glyphA, hs.pcBound, hs.stackBound, hs.stackAligned, hs.waitPc, hs.haltRecord, fun h => nomatch h⟩

theorem State.Inv.beginCycle {s : State} (hs : s.Inv) (rnd : Option Byte) : (s.beginCycle rnd).Inv :=
  hs.withStarted.withHostFields

/-! ### PC, return addresses and stores -/

/-- An instruction is fetched at 0xFFE or below (R80). -/
theorem FetchOk.pc_le {s : State} (hf : FetchOk s) : s.pc.toNat ≤ 0xFFE := by
  obtain ⟨hr, -⟩ := hf
  unfold InRange at hr
  omega

/-- Under PC_CHECK = Strict an instruction is fetched at an aligned PC (R81). -/
theorem FetchOk.pcAligned {s : State} (hf : FetchOk s) (hc : s.cfg.pcCheck = .strict) : PcAligned s.pc :=
  hf.2.resolve_right fun hp => nomatch hc.symm.trans hp

/-- PC + 2 does not wrap at a PC an instruction is fetched at (R30). -/
theorem toNat_add_two {pc : Word} (h : pc.toNat ≤ 0xFFE) : (pc + 2).toNat = pc.toNat + 2 :=
  BitVec.toNat_add_of_lt (Nat.lt_of_le_of_lt (Nat.add_le_add_right h 2) (by decide))

/-- PC + 4 does not wrap there either. -/
theorem toNat_add_four {pc : Word} (h : pc.toNat ≤ 0xFFE) : (pc + 4).toNat = pc.toNat + 4 :=
  BitVec.toNat_add_of_lt (Nat.lt_of_le_of_lt (Nat.add_le_add_right h 4) (by decide))

/-- The instruction behind an aligned one is aligned. -/
theorem PcAligned.add_two {pc : Word} (ha : PcAligned pc) (h : pc.toNat ≤ 0xFFE) : PcAligned (pc + 2) := by
  obtain ⟨heven, hlow⟩ := ha
  unfold PcAligned
  rw [toNat_add_two h]
  omega

/-- The target of JP and CALL is a 12-bit address (R84). -/
theorem zextAddr_toNat_le (nnn : Addr) : (zextAddr nnn).toNat ≤ 0x10FE := by
  have := nnn.isLt
  rw [zextAddr_toNat]
  omega

/-- The target of JP V0 does not wrap (R30, R104). -/
theorem toNat_jpV0_target_le (nnn : Addr) (b : Byte) : (zextAddr nnn + b.setWidth 16).toNat ≤ 0x10FE := by
  have hn := nnn.isLt
  have hb := b.isLt
  rw [BitVec.toNat_add, zextAddr_toNat, BitVec.toNat_setWidth]
  omega

/-- Behind a fetched instruction, past one more, or at a jump's target, PC stays within the bound of R30. -/
theorem FetchOk.target_le {s : State} (hf : FetchOk s) {pc : Word}
    (target : pc = s.pc + 2 ∨ pc = s.pc + 4 ∨ pc.toNat ≤ 0x10FE) : pc.toNat ≤ 0x10FE := by
  have hpc := hf.pc_le
  rcases target with rfl | rfl | hjump
  · rw [toNat_add_two hpc]
    omega
  · rw [toNat_add_four hpc]
    omega
  · exact hjump

/-- What holds of every entry in use and of a pushed entry holds of every entry in use after the push. -/
theorem forall_inUse_set {P : Word → Prop} {stack : Vector Word 16} {n : Nat} (hn : n < 16) {w : Word}
    (h : ∀ j : Fin 16, j.val < n → P stack[j.val]) (hw : P w) (j : Fin 16) (hj : j.val < n + 1) :
    P (stack.set n w hn)[j.val] := by
  by_cases e : n = j.val
  · subst e
    simpa using hw
  · rw [Vector.getElem_set_ne hn j.isLt e]
    exact h j (by omega)

/-- A store of bytes whose addresses are in range keeps the canonical form (R64). -/
theorem State.wf_store_of_inRange {s : State} {a : Nat} {bs : List Byte} (h : Memory.wf s.cfg s.mem = true)
    (ha : InRange a bs.length) : Memory.wf (s.store a bs).cfg (s.store a bs).mem = true :=
  State.wf_store s a bs h (ha.imp List.length_eq_zero_iff.1 fun h => by omega)

/-! ### What an instruction does to PC, the stack, memory and the run state -/

/-- The next states of instruction `ins` in `s`, by what the invariant reads of them. -/
inductive InstrEffect : Instr → State → State → Prop
  /-- It raises an error whose cause holds, with its own word in the record (R260, R262). -/
  | halts {ins : Instr} {s : State} {kind : ErrorKind} (cause : RecordFits ⟨kind, s.pc, some (encode ins)⟩ s) :
      InstrEffect ins s (s.halt kind (some (encode ins)))
  /-- LD Vx, K enters its wait (R212). -/
  | waits {s : State} (x : Reg) : InstrEffect (.ldK x) s { s with run := .waitingForKey x }
  /-- CALL pushes PC + 2 and jumps (R102). -/
  | calls {s : State} (nnn : Addr) (h : s.sp.val < 16) :
      InstrEffect (.call nnn) s
        { s with stack := s.stack.set s.sp.val (s.pc + 2) h, sp := ⟨s.sp.val + 1, Nat.succ_lt_succ h⟩,
                 pc := zextAddr nnn }
  /-- RET pops an entry in use into PC (R103). -/
  | returns {s : State} (j : Fin 16) (h : s.sp.val = j.val + 1) :
      InstrEffect .ret s { s with sp := j.castSucc, pc := s.stack[j.val] }
  /-- Fx33 and Fx55 store the bytes they access at I (R240, R241). -/
  | stores {ins : Instr} {s : State} {bs : List Byte} (length : dataLength ins = some bs.length)
      (inRange : InRange s.i.toNat bs.length) : InstrEffect ins s (s.store s.i.toNat bs).advance
  /-- Every other instruction leaves stack, memory and run state alone, and goes on behind itself, past one more
  instruction, or at a jump's target (R27, R101, R104, R124). -/
  | goesOn {ins : Instr} {s : State} {v : Vector Byte 16} {i pc : Word} {dt st : Byte} {dirty : Bool} {fb : Framebuffer}
      {draws : Nat} (target : pc = s.pc + 2 ∨ pc = s.pc + 4 ∨ pc.toNat ≤ 0x10FE) :
      InstrEffect ins s
        { s with v := v, i := i, pc := pc, dt := dt, st := st, dirty := dirty, fb := fb, draws := draws }

/-- A skip goes on behind the instruction or past the one after it (R124). -/
theorem InstrEffect.skips (ins : Instr) (s : State) (taken : Bool) : InstrEffect ins s (s.skipIf taken) := by
  cases taken with
  | false => exact .goesOn (.inl rfl)
  | true => exact .goesOn (.inr (.inl rfl))

/-- An access through I that is out of range is the cause its record names (R64, R260). -/
theorem InstrEffect.halts_outOfRange {ins : Instr} {s : State} {n : Nat} (hn : dataLength ins = some n)
    (hr : ¬ InRange s.i.toNat n) : InstrEffect ins s (s.halt .outOfRange (some (encode ins))) :=
  .halts (.inr ⟨ins, n, rfl, hn, hr⟩)

/-- Every instruction has one of these effects. -/
theorem exec_instrEffect {ins : Instr} {s t : State} (h : exec ins s = .next t) : InstrEffect ins s t := by
  cases ins with
  | sys nnn =>
    simp only [exec, execSys] at h
    split at h <;> cases h
    · exact .halts ⟨nnn, rfl, by assumption⟩
    · exact .goesOn (.inl rfl)
  | jp nnn =>
    cases h
    exact .goesOn (.inr (.inr (zextAddr_toNat_le nnn)))
  | jpV0 nnn =>
    cases h
    exact .goesOn (.inr (.inr (toNat_jpV0_target_le nnn _)))
  | call nnn =>
    simp only [exec, execCall] at h
    split at h
    · rename_i u hu
      obtain ⟨hsp, rfl⟩ := (State.push?_eq_some _ _ _).1 hu
      cases h
      exact .calls nnn hsp
    · rename_i hfull
      cases h
      exact .halts ⟨nnn, rfl, (State.push?_eq_none _ _).1 hfull⟩
  | ret =>
    simp only [exec, execRet] at h
    split at h
    · rename_i u v hu
      obtain ⟨hsp, rfl, rfl⟩ := (State.pop?_eq_some _ _ _).1 hu
      cases h
      have := s.sp.isLt
      exact .returns ⟨s.sp.val - 1, by omega⟩ (by simp only; omega)
    · rename_i hempty
      cases h
      exact .halts ⟨rfl, (State.pop?_eq_none _).1 hempty⟩
  | seImm | sneImm | seReg | sneReg =>
    cases h
    exact .skips _ s _
  | skp x =>
    simp only [exec, execSkp] at h
    split at h <;> cases h
    · exact .skips _ s _
    · exact .halts ⟨x, .inl rfl, (keyIndex_eq_none _).1 (by assumption)⟩
  | sknp x =>
    simp only [exec, execSknp] at h
    split at h <;> cases h
    · exact .skips _ s _
    · exact .halts ⟨x, .inr rfl, (keyIndex_eq_none _).1 (by assumption)⟩
  | drw x y n =>
    simp only [exec, execDrw] at h
    split at h <;> cases h
    · exact .goesOn (.inl rfl)
    · exact .halts_outOfRange rfl (by assumption)
  | ldB x =>
    simp only [exec, execLdB] at h
    split at h <;> cases h
    · exact .stores rfl (by assumption)
    · exact .halts_outOfRange rfl (by assumption)
  | ldStore x =>
    simp only [exec, execLdStore] at h
    have hlen := State.length_regsUpTo s x
    split at h <;> cases h
    · exact .stores (congrArg some hlen.symm) (by rwa [hlen])
    · exact .halts_outOfRange rfl (by assumption)
  | ldLoad x =>
    simp only [exec, execLdLoad] at h
    split at h <;> cases h
    · exact .goesOn (.inl rfl)
    · exact .halts_outOfRange rfl (by assumption)
  | ldK x =>
    cases h
    exact .waits x
  | cls | ldImm | addImm | ldReg | orReg | andReg | xorReg | addReg | sub | shr | subn | shl | ldI | rnd | ldVxDt
  | ldDt | ldSt | addI | ldF =>
    cases h
    exact .goesOn (.inl rfl)

/-! ### A cycle keeps the invariant -/

/-- After the first cycle, an error whose cause holds keeps the invariant (R260, R262). -/
theorem State.Inv.halt {s : State} (hs : s.Inv) (hstart : s.started = true) {kind : ErrorKind} {op : Option Word}
    (cause : RecordFits ⟨kind, s.pc, op⟩ s) : (s.halt kind op).Inv where
  memory := hs.memory
  glyphA := hs.glyphA
  pcBound := hs.pcBound
  stackBound := hs.stackBound
  stackAligned := hs.stackAligned
  waitPc _ hx := nomatch hx
  haltRecord e he := by
    cases he
    exact ⟨rfl, cause⟩
  beforeStart hn := nomatch hstart.symm.trans hn

/-- A running state after the first cycle meets the invariant when its memory, its font, its PC and its return addresses
do: the clauses about waiting, halting and the first cycle say nothing of it. -/
theorem State.inv_of_running {t : State} (hrun : t.run = .running) (hstart : t.started = true)
    (memory : Memory.wf t.cfg t.mem = true) (glyphA : GlyphAFixed t.cfg) (pcBound : t.pc.toNat ≤ 0x10FE)
    (stackBound : ∀ j : Fin 16, j.val < t.sp.val → t.stack[j.val].toNat ≤ 0x1000)
    (stackAligned : t.cfg.pcCheck = .strict → ∀ j : Fin 16, j.val < t.sp.val → PcAligned t.stack[j.val]) : t.Inv where
  memory := memory
  glyphA := glyphA
  pcBound := pcBound
  stackBound := stackBound
  stackAligned := stackAligned
  waitPc _ hx := nomatch hrun.symm.trans hx
  haltRecord _ he := nomatch hrun.symm.trans he
  beforeStart hn := nomatch hstart.symm.trans hn

/-- An instruction executed where it was fetched keeps the invariant. -/
theorem State.Inv.exec {s t : State} {ins : Instr} (hs : s.Inv) (hrun : s.run = .running) (hstart : s.started = true)
    (hf : FetchOk s) (h : exec ins s = .next t) : t.Inv := by
  have hpc := hf.pc_le
  cases exec_instrEffect h with
  | halts cause => exact hs.halt hstart cause
  | waits x =>
    exact ⟨hs.memory, hs.glyphA, hs.pcBound, hs.stackBound, hs.stackAligned, fun _ _ => hf, (fun _ he => nomatch he),
      fun hn => nomatch hstart.symm.trans hn⟩
  | calls nnn hsp =>
    have hret : (s.pc + 2).toNat ≤ 0x1000 := by
      rw [toNat_add_two hpc]
      omega
    exact State.inv_of_running hrun hstart hs.memory hs.glyphA (zextAddr_toNat_le nnn)
      (forall_inUse_set (P := fun w => w.toNat ≤ 0x1000) hsp hs.stackBound hret)
      fun hc => forall_inUse_set hsp (hs.stackAligned hc) ((hf.pcAligned hc).add_two hpc)
  | returns j hsp =>
    have inUse : ∀ k : Fin 16, k.val < j.val → k.val < s.sp.val := fun k hk => by omega
    have htop := hs.stackBound j (by omega)
    exact State.inv_of_running hrun hstart hs.memory hs.glyphA (Nat.le_trans htop (by decide))
      (fun k hk => hs.stackBound k (inUse k hk)) (fun hc k hk => hs.stackAligned hc k (inUse k hk))
  | stores _ hin =>
    exact State.inv_of_running hrun hstart (State.wf_store_of_inRange hs.memory hin) hs.glyphA
      (hf.target_le (.inl rfl)) hs.stackBound hs.stackAligned
  | goesOn target =>
    exact State.inv_of_running hrun hstart hs.memory hs.glyphA (hf.target_le target) hs.stackBound hs.stackAligned

/-- The record of a failed fetch names its cause (R80, R81, R260). -/
theorem recordFits_of_fetch_eq_error {s : State} {kind : ErrorKind} (h : fetch s = .error kind) :
    RecordFits ⟨kind, s.pc, none⟩ s := by
  rcases (fetch_eq_error s kind).1 h with ⟨rfl, hr⟩ | ⟨rfl, -, ha, hc⟩
  · exact .inl ⟨rfl, hr⟩
  · exact ⟨rfl, hc, ha⟩

/-- A cycle keeps the invariant in every run state (R270). -/
theorem State.Inv.cycle {s t : State} {rnd : Option Byte} (hs : s.Inv) (h : cycle rnd s = .next t) : t.Inv := by
  cases hrun : s.run with
  | running =>
    have hb := hs.beginCycle rnd
    rcases cycle_running_cases rnd s hrun with ⟨k, hf, hc⟩ | ⟨op, -, hd, hc⟩ | ⟨op, i, hf, -, hc⟩ <;> rw [hc] at h
    · cases h
      exact hb.halt rfl (recordFits_of_fetch_eq_error hf)
    · cases h
      exact hb.halt rfl ⟨op, rfl, hd⟩
    · exact hb.exec hrun rfl ((fetch_eq_ok s op).1 hf).1 h
  | waitingForKey x =>
    simp only [Machine.cycle, hrun] at h
    cases h
    exact hrun ▸ hs.withStarted
  | halted e =>
    simp only [Machine.cycle, hrun] at h
    cases h
    exact hrun ▸ hs.withStarted

/-! ### The other transactions keep the invariant -/

/-- `reset` keeps the parameters and gives a reset state (R300, R302). -/
theorem State.Inv.resetBlock {s : State} (hs : s.Inv) : (resetBlock s).Inv :=
  have hr := State.inv_resetWith hs.glyphA
  ⟨hr.memory, hr.glyphA, hr.pcBound, hr.stackBound, hr.stackAligned, hr.waitPc, hr.haltRecord, hr.beforeStart⟩

/-- Storing an image that fits keeps the invariant: it ends at 0xFFF (R306). -/
theorem State.Inv.storeImage {s : State} (hs : s.Inv) {image : List Byte} (hl : image.length ≤ maxImage) :
    (s.store progBase image).Inv where
  memory := State.wf_store s _ _ hs.memory (.inr (by simp only [progBase, maxImage] at *; omega))
  glyphA := hs.glyphA
  pcBound := hs.pcBound
  stackBound := hs.stackBound
  stackAligned := hs.stackAligned
  waitPc := hs.waitPc
  haltRecord := hs.haltRecord
  beforeStart := hs.beforeStart

/-- Before the first cycle PC is 0x200, which is what the record of a rejected image says (R28, R306). -/
theorem State.Inv.rejectImage {s : State} (hs : s.Inv) (hstart : s.started = false) : (rejectImage s).Inv := by
  obtain ⟨hpc, hrun | hrun⟩ := hs.beforeStart hstart
  · have hr : Machine.rejectImage s =
        { s with run := .halted { kind := .programTooLarge, pc := 0x200, opcode := none } } := by
      simp only [Machine.rejectImage, hrun]
    rw [hr]
    exact {
      memory := hs.memory
      glyphA := hs.glyphA
      pcBound := hs.pcBound
      stackBound := hs.stackBound
      stackAligned := hs.stackAligned
      waitPc := fun _ hx => nomatch hx
      haltRecord := fun e he => by
        cases he
        exact ⟨hpc.symm, rfl, rfl⟩
      beforeStart := fun _ => ⟨hpc, .inr rfl⟩ }
  · have hr : Machine.rejectImage s = s := by simp only [Machine.rejectImage, hrun]
    rw [hr]
    exact hs

/-- A `load` that is not refused keeps the invariant (R305, R306). -/
theorem State.Inv.loadImage {s t : State} {image : List Byte} (hs : s.Inv) (h : loadImage image s = .next t) :
    t.Inv := by
  obtain ⟨hstart, ⟨-, rfl⟩ | ⟨hl, rfl⟩⟩ := loadImage_next_cases image s t h
  · exact hs.rejectImage hstart
  · exact hs.storeImage hl

/-- A key release that completes LD Vx, K passes the waiting instruction, which was fetched (R213). -/
theorem State.Inv.resumeWithKey {s : State} (hs : s.Inv) {x : Reg} (hrun : s.run = .waitingForKey x) (k : Key) :
    (resumeWithKey x k s).Inv := by
  have hstart : s.started = true := by
    by_contra hn
    obtain ⟨-, hr | hr⟩ := hs.beforeStart (by simpa using hn) <;> exact nomatch hrun.symm.trans hr
  exact State.inv_of_running rfl hstart hs.memory hs.glyphA ((hs.waitPc x hrun).target_le (.inl rfl))
    hs.stackBound hs.stackAligned

/-- A key event keeps the invariant (R213, R214). -/
theorem State.Inv.keyEvent {s : State} (hs : s.Inv) (k : Key) (pressed : Bool) : (keyEvent k pressed s).Inv := by
  rcases keyEvent_cases k pressed s with ⟨x, hrun, -, he⟩ | ⟨-, he⟩ <;> rw [he]
  · exact hs.resumeWithKey hrun k
  · exact hs.withHostFields

/-- Every transaction that is not refused keeps the invariant (R45). -/
theorem State.Inv.transact {s t : State} {tr : Transaction} (hs : s.Inv) (h : transact tr s = .next t) : t.Inv := by
  cases tr with
  | reset => cases h; exact hs.resetBlock
  | load image => exact hs.loadImage h
  | cycle rnd => exact hs.cycle h
  | tick => cases h; exact hs.withHostFields
  | keyEvent k pressed => cases h; exact hs.keyEvent k pressed
  | fbRead px py => cases h; exact hs
  | ackRedraw => cases h; exact hs.withHostFields

/-- Settles O19: a step is one pending transaction, or one cycle where none is pending, and each keeps the invariant. -/
theorem everyStepKeepsTheInvariant : Obligations.EveryStepKeepsTheInvariant := by
  intro s t hs h
  unfold step at h
  split at h
  · exact hs.cycle h
  · exact hs.withHostFields.transact h

end Sys2Proof.Machine

/-! PROOFS. Family 10_state.md: which instructions write VF (O32), I (O34), the framebuffer and `dirty` (O42), memory
(O51), the stack and the host's side (O57); what no instruction reads (O58, O59); the host's transactions (O56); the
redraw output (O17) and the opcode of an error record (O14). -/

namespace Sys2Proof.Machine

/-! ### The fields an instruction writes -/

/-- The instructions with VF among their destinations: the seven flag writers (R35), and the register writers whose
destination is VF (R22). -/
def WritesVF (ins : Instr) : Prop :=
  (∃ x y, ins = .addReg x y ∨ ins = .sub x y ∨ ins = .shr x y ∨ ins = .subn x y ∨ ins = .shl x y) ∨
  (∃ x, ins = .addI x) ∨ (∃ x y n, ins = .drw x y n) ∨
  (∃ kk, ins = .ldImm vF kk ∨ ins = .addImm vF kk ∨ ins = .rnd vF kk) ∨
  (∃ y, ins = .ldReg vF y ∨ ins = .orReg vF y ∨ ins = .andReg vF y ∨ ins = .xorReg vF y) ∨
  ins = .ldVxDt vF ∨ ins = .ldLoad vF

/-- The next states of instruction `ins` in `s`, by the fields they overwrite. -/
inductive FieldWrites : Instr → State → State → Prop
  /-- An error, a key wait, a jump or a skip writes the run state or PC alone. -/
  | control {ins : Instr} {s : State} {run : RunState} {pc : Word} : FieldWrites ins s { s with run := run, pc := pc }
  /-- CALL and RET write PC, SP and the stack. -/
  | callStack {ins : Instr} {s : State} {pc : Word} {stack : Vector Word 16} {sp : Fin 17}
      (writer : ins = .ret ∨ ∃ nnn, ins = .call nnn) :
      FieldWrites ins s { s with pc := pc, stack := stack, sp := sp }
  /-- Fx33 and Fx55 store the bytes they access at I. -/
  | memory {ins : Instr} {s : State} {x : Reg} {bs : List Byte} (writer : ins = .ldB x ∨ ins = .ldStore x)
      (length : dataLength ins = some bs.length) (inRange : InRange s.i.toNat bs.length) :
      FieldWrites ins s (s.store s.i.toNat bs).advance
  /-- LD I, ADD I and LD F write I, and ADD I its flag. -/
  | address {ins : Instr} {s : State} {v : Vector Byte 16} {i pc : Word}
      (writer : (∃ nnn, ins = .ldI nnn) ∨ ∃ x, ins = .addI x ∨ ins = .ldF x) (vf : v[15] = s.v[15] ∨ WritesVF ins) :
      FieldWrites ins s { s with v := v, i := i, pc := pc }
  /-- CLS and DRW write the framebuffer and set `dirty`, and DRW its flag. -/
  | display {ins : Instr} {s : State} {v : Vector Byte 16} {fb : Framebuffer} {pc : Word}
      (writer : ins = .cls ∨ ∃ x y n, ins = .drw x y n) (vf : v[15] = s.v[15] ∨ WritesVF ins) :
      FieldWrites ins s { s with v := v, fb := fb, dirty := true, pc := pc }
  /-- The loads, the ALU and RND write registers, and RND consumes a draw. -/
  | registers {ins : Instr} {s : State} {v : Vector Byte 16} {pc : Word} {draws : Nat}
      (vf : v[15] = s.v[15] ∨ WritesVF ins) : FieldWrites ins s { s with v := v, pc := pc, draws := draws }
  /-- LD DT and LD ST write a timer. -/
  | timers {ins : Instr} {s : State} {dt st : Byte} {pc : Word} :
      FieldWrites ins s { s with dt := dt, st := st, pc := pc }

/-- A write to one register writes VF exactly when VF is its destination. -/
theorem State.vF_setReg_or {s : State} {x : Reg} {b : Byte} {p : Prop} (h : x = vF → p) :
    (s.setReg x b).v[15] = s.v[15] ∨ p := by
  by_cases hx : x = vF
  · exact .inr (h hx)
  · exact .inl (Vector.getElem_set_ne x.isLt _ fun e => hx (Fin.ext e))

/-- A load of V0, …, Vx leaves VF alone unless x = 0xF. -/
theorem loadRegs_vF {v : Vector Byte 16} {x : Reg} {bs : List Byte} (hbs : bs.length = x.val + 1) (hx : x ≠ vF) :
    (loadRegs v 0 bs)[15] = v[15] := by
  have hlt : x.val < 15 := Nat.lt_of_le_of_ne (Nat.le_of_lt_succ x.isLt) fun e => hx (Fin.ext e)
  rw [getElem_loadRegs v 0 bs (by omega) 15 (by omega), dif_neg (by omega)]

/-- Every instruction overwrites one of these groups of fields. -/
theorem exec_fieldWrites {ins : Instr} {s t : State} (h : exec ins s = .next t) : FieldWrites ins s t := by
  cases ins with
  | sys nnn =>
    simp only [exec, execSys] at h
    split at h <;> cases h <;> exact .control
  | skp x | sknp x =>
    simp only [exec, execSkp, execSknp] at h
    split at h <;> cases h <;> exact .control
  | jp | jpV0 | seImm | sneImm | seReg | sneReg | ldK =>
    cases h
    exact .control
  | call nnn =>
    simp only [exec, execCall] at h
    split at h
    · rename_i u hu
      obtain ⟨_, rfl⟩ := (State.push?_eq_some _ _ _).1 hu
      cases h
      exact .callStack (.inr ⟨nnn, rfl⟩)
    · cases h
      exact .control
  | ret =>
    simp only [exec, execRet] at h
    split at h
    · rename_i u v hu
      obtain ⟨_, -, rfl⟩ := (State.pop?_eq_some _ _ _).1 hu
      cases h
      exact .callStack (.inl rfl)
    · cases h
      exact .control
  | ldB x =>
    simp only [exec, execLdB] at h
    split at h <;> cases h
    · exact .memory (.inl rfl) rfl (by assumption)
    · exact .control
  | ldStore x =>
    simp only [exec, execLdStore] at h
    have hlen := State.length_regsUpTo s x
    split at h <;> cases h
    · exact .memory (.inr rfl) (congrArg some hlen.symm) (by rwa [hlen])
    · exact .control
  | ldI nnn =>
    cases h
    exact .address (.inl ⟨nnn, rfl⟩) (.inl rfl)
  | addI x =>
    cases h
    exact .address (.inr ⟨x, .inl rfl⟩) (.inr (.inr (.inl ⟨x, rfl⟩)))
  | ldF x =>
    cases h
    exact .address (.inr ⟨x, .inr rfl⟩) (.inl rfl)
  | cls =>
    cases h
    exact .display (.inl rfl) (.inl rfl)
  | drw x y n =>
    simp only [exec, execDrw] at h
    split at h <;> cases h
    · exact .display (.inr ⟨x, y, n, rfl⟩) (.inr (.inr (.inr (.inl ⟨x, y, n, rfl⟩))))
    · exact .control
  | ldImm x kk | addImm x kk | rnd x kk | ldVxDt x | ldReg x y | orReg x y | andReg x y | xorReg x y =>
    cases h
    exact .registers (State.vF_setReg_or (by rintro rfl; simp [WritesVF]))
  | addReg x y | sub x y | shr x y | subn x y | shl x y =>
    cases h
    exact .registers (.inr (.inl ⟨x, y, by simp⟩))
  | ldLoad x =>
    simp only [exec, execLdLoad] at h
    split at h <;> cases h
    · by_cases hx : x = vF
      · exact .registers (.inr (by subst hx; simp [WritesVF]))
      · exact .registers (.inl (loadRegs_vF (Memory.length_readBytes ..) hx))
    · exact .control
  | ldDt | ldSt =>
    cases h
    exact .timers

/-- Settles O32: where VF differs the instruction wrote the registers, and then VF is a destination of it. -/
theorem onlyFlagWritersAndDestinationsChangeVF : Obligations.OnlyFlagWritersAndDestinationsChangeVF := by
  intro i s t h hne
  cases exec_fieldWrites h with
  | control | callStack | memory | timers => exact absurd rfl hne
  | address _ vf | display _ vf | registers vf => exact vf.resolve_left hne

/-- Settles O34, by the one group of writes that holds I. -/
theorem onlyThreeInstructionsChangeI : Obligations.OnlyThreeInstructionsChangeI := by
  intro i s t h hne
  cases exec_fieldWrites h with
  | address writer => exact writer
  | control | callStack | memory | display | registers | timers => exact absurd rfl hne

/-- Settles O42, by the one group of writes that holds the framebuffer and `dirty`. -/
theorem onlyClsAndDrwWriteTheFramebuffer : Obligations.OnlyClsAndDrwWriteTheFramebuffer := by
  intro i s t h hne
  cases exec_fieldWrites h with
  | display writer => exact ⟨rfl, writer⟩
  | control | callStack | memory | address | registers | timers => exact absurd hne (by simp)

/-- A store inside the 4096 bytes changes no byte outside its range (R65). -/
theorem State.mem_range_of_byte_store_ne {s : State} {a d : Nat} {bs : List Byte} (h : Memory.wf s.cfg s.mem = true)
    (ha : InRange a bs.length) (hne : (s.store a bs).byte d ≠ s.byte d) : a ≤ d ∧ d < a + bs.length ∧ d ≤ 0xFFF := by
  have hb := State.byte_store s a d bs h (ha.imp List.length_eq_zero_iff.1 fun h => by omega)
  split at hb
  · unfold InRange at ha
    omega
  · exact absurd hb hne

/-- Settles O51, by the one group of writes that holds memory, whose store is in range. -/
theorem onlyTwoInstructionsWriteMemory : Obligations.OnlyTwoInstructionsWriteMemory := by
  intro i s t a hwf h hne
  cases exec_fieldWrites h with
  | memory writer length inRange =>
    obtain ⟨hlo, hhi, hmax⟩ := State.mem_range_of_byte_store_ne hwf inRange hne
    exact ⟨_, _, writer, length, hlo, hhi, hmax⟩
  | control | callStack | address | display | registers | timers => exact absurd rfl hne

/-- An instruction but CALL and RET leaves SP and the stack alone (R31). -/
theorem exec_stack_eq_or {ins : Instr} {s t : State} (h : exec ins s = .next t) :
    (t.sp = s.sp ∧ t.stack = s.stack) ∨ ins = .ret ∨ ∃ nnn, ins = .call nnn := by
  cases exec_fieldWrites h with
  | callStack writer => exact .inr writer
  | control | memory | address | display | registers | timers => exact .inl ⟨rfl, rfl⟩

/-- Settles O57: no instruction touches what the host owns, and CALL and RET alone write SP or the stack. -/
theorem instructionsLeaveTheHostSideAlone : Obligations.InstructionsLeaveTheHostSideAlone := by
  intro i s t h
  obtain ⟨cfg, key, pending, started, -⟩ := exec_keepsHostSide i s t h
  refine ⟨cfg, key, pending, started, fun hne => (exec_stack_eq_or h).resolve_left ?_⟩
  rintro ⟨hsp, hstack⟩
  exact hne.elim (absurd hsp) (absurd hstack)

/-! ### What no instruction reads -/

theorem exec_call_of_lt {s : State} (nnn : Addr) (h : s.sp.val < 16) :
    exec (.call nnn) s = .next { s with stack := s.stack.set s.sp.val (s.pc + 2) h,
                                        sp := ⟨s.sp.val + 1, Nat.succ_lt_succ h⟩, pc := zextAddr nnn } := by
  simp only [exec, execCall, (State.push?_eq_some s _ _).2 ⟨h, rfl⟩]

theorem exec_call_of_full {s : State} (nnn : Addr) (h : s.sp.val = 16) :
    exec (.call nnn) s = .next (s.halt .stackOverflow (some (encode (.call nnn)))) := by
  simp only [exec, execCall, (State.push?_eq_none s _).2 h, raiseIn_eq_next]

theorem exec_ret_of_pos {s : State} (h : 0 < s.sp.val) :
    exec .ret s = .next { s with pc := s.stack[s.sp.val - 1]'(by have := s.sp.isLt; omega),
                                 sp := ⟨s.sp.val - 1, by have := s.sp.isLt; omega⟩ } := by
  simp only [exec, execRet, (State.pop?_eq_some s _ _).2 ⟨h, rfl, rfl⟩]

theorem exec_ret_of_empty {s : State} (h : s.sp.val = 0) :
    exec .ret s = .next (s.halt .stackUnderflow (some (encode .ret))) := by
  simp only [exec, execRet, (State.pop?_eq_none s).2 h, raiseIn_eq_next]

/-- The stack holds the same entries below SP; those at or above SP are stale (R32). -/
def State.AgreesBelowSp (s : State) (stack : Vector Word 16) : Prop :=
  ∀ j : Fin 16, j.val < s.sp.val → stack[j.val] = s.stack[j.val]

/-- Other values in ST, `dirty` and the stack. -/
def State.withUnread (s : State) (st : Byte) (dirty : Bool) (stack : Vector Word 16) : State :=
  { s with st := st, dirty := dirty, stack := stack }

@[simp] theorem State.withUnread_i (s : State) (st : Byte) (dirty : Bool) (stack : Vector Word 16) :
    (s.withUnread st dirty stack).i = s.i := rfl

@[simp] theorem State.withUnread_cfg (s : State) (st : Byte) (dirty : Bool) (stack : Vector Word 16) :
    (s.withUnread st dirty stack).cfg = s.cfg := rfl

@[simp] theorem State.reg_withUnread (s : State) (st : Byte) (dirty : Bool) (stack : Vector Word 16) (x : Reg) :
    (s.withUnread st dirty stack).reg x = s.reg x := rfl

/-- An instruction but CALL and RET reads neither ST, `dirty` nor the stack: with other values there it gives the same
state but for these fields, and passes the stack on. -/
theorem exec_withUnread_of_not_callStack {ins : Instr} {s t : State} (h : exec ins s = .next t)
    (hins : ¬ (ins = .ret ∨ ∃ nnn, ins = .call nnn)) (st : Byte) (dirty : Bool) :
    ∃ st' dirty', ∀ stack, exec ins (s.withUnread st dirty stack) = .next (t.withUnread st' dirty' stack) := by
  cases ins with
  | call nnn => exact absurd (.inr ⟨nnn, rfl⟩) hins
  | ret => exact absurd (.inl rfl) hins
  | cls =>
    cases h
    exact ⟨st, true, fun _ => rfl⟩
  | ldSt x =>
    cases h
    exact ⟨s.reg x, dirty, fun _ => rfl⟩
  | drw x y n =>
    simp only [exec, execDrw, State.withUnread_i] at h ⊢
    by_cases hr : InRange s.i.toNat n.val <;> simp only [hr, if_true, if_false] at h ⊢ <;> cases h
    · exact ⟨st, true, fun _ => rfl⟩
    · exact ⟨st, dirty, fun _ => rfl⟩
  | sys nnn =>
    simp only [exec, execSys, State.withUnread_cfg] at h ⊢
    generalize s.cfg.sysMode = mode at h ⊢
    cases mode <;> cases h <;> exact ⟨st, dirty, fun _ => rfl⟩
  | skp x | sknp x =>
    simp only [exec, execSkp, execSknp, State.reg_withUnread] at h ⊢
    generalize keyIndex (s.reg x) = key at h ⊢
    cases key <;> cases h <;> exact ⟨st, dirty, fun _ => rfl⟩
  | ldB x =>
    simp only [exec, execLdB, State.withUnread_i] at h ⊢
    by_cases hr : InRange s.i.toNat 3 <;> simp only [hr, if_true, if_false] at h ⊢ <;> cases h <;>
      exact ⟨st, dirty, fun _ => rfl⟩
  | ldStore x | ldLoad x =>
    simp only [exec, execLdStore, execLdLoad, State.withUnread_i] at h ⊢
    by_cases hr : InRange s.i.toNat (x.val + 1) <;> simp only [hr, if_true, if_false] at h ⊢ <;> cases h <;>
      exact ⟨st, dirty, fun _ => rfl⟩
  | _ =>
    cases h
    exact ⟨st, dirty, fun _ => rfl⟩

/-- CALL reads none of ST, `dirty` and the stack: it writes the entry SP names, which is then in use. -/
theorem exec_call_withUnread {nnn : Addr} {s t : State} (h : exec (.call nnn) s = .next t) (st : Byte) (dirty : Bool)
    {stack : Vector Word 16} (ha : s.AgreesBelowSp stack) :
    ∃ stack', exec (.call nnn) (s.withUnread st dirty stack) = .next (t.withUnread st dirty stack') ∧
      t.AgreesBelowSp stack' ∧ (stack = s.stack → stack' = t.stack) := by
  rcases Nat.lt_or_eq_of_le (Nat.le_of_lt_succ s.sp.isLt) with hsp | hsp
  · cases (exec_call_of_lt nnn hsp).symm.trans h
    refine ⟨stack.set s.sp.val (s.pc + 2) hsp, exec_call_of_lt (s := s.withUnread st dirty stack) nnn hsp,
      fun j hj => ?_, fun e => congrArg (·.set s.sp.val (s.pc + 2) hsp) e⟩
    simp only [Vector.getElem_set]
    split
    · rfl
    · exact ha j (by simp only at hj; omega)
  · cases (exec_call_of_full nnn hsp).symm.trans h
    exact ⟨stack, exec_call_of_full (s := s.withUnread st dirty stack) nnn hsp, ha, id⟩

/-- RET reads neither ST nor `dirty`, and of the stack the one entry below SP, which is in use. -/
theorem exec_ret_withUnread {s t : State} (h : exec .ret s = .next t) (st : Byte) (dirty : Bool)
    {stack : Vector Word 16} (ha : s.AgreesBelowSp stack) :
    exec .ret (s.withUnread st dirty stack) = .next (t.withUnread st dirty stack) ∧ t.AgreesBelowSp stack ∧
      t.stack = s.stack := by
  have hle := s.sp.isLt
  rcases Nat.eq_zero_or_pos s.sp.val with hsp | hsp
  · cases (exec_ret_of_empty hsp).symm.trans h
    exact ⟨exec_ret_of_empty (s := s.withUnread st dirty stack) hsp, ha, rfl⟩
  · cases (exec_ret_of_pos hsp).symm.trans h
    refine ⟨(exec_ret_of_pos (s := s.withUnread st dirty stack) hsp).trans ?_, fun j hj => ha j ?_, rfl⟩
    · have htop := ha ⟨s.sp.val - 1, by omega⟩ (by simp only; omega)
      simp only [State.withUnread] at htop ⊢
      rw [htop]
    · simp only at hj
      omega

/-- No instruction reads ST, `dirty` or a stack entry at or above SP: with other values there it gives the same state but
for such values. The ST and `dirty` it leaves do not depend on the stack, and with its own stack it leaves its own. -/
theorem exec_withUnread {ins : Instr} {s t : State} (h : exec ins s = .next t) (st : Byte) (dirty : Bool) :
    ∃ st' dirty', ∀ stack, s.AgreesBelowSp stack →
      ∃ stack', exec ins (s.withUnread st dirty stack) = .next (t.withUnread st' dirty' stack') ∧
        t.AgreesBelowSp stack' ∧ (stack = s.stack → stack' = t.stack) := by
  by_cases hins : ins = .ret ∨ ∃ nnn, ins = .call nnn
  · refine ⟨st, dirty, fun stack ha => ?_⟩
    rcases hins with rfl | ⟨nnn, rfl⟩
    · obtain ⟨hexec, hagree, hstack⟩ := exec_ret_withUnread h st dirty ha
      exact ⟨stack, hexec, hagree, fun e => e.trans hstack.symm⟩
    · exact exec_call_withUnread h st dirty ha
  · obtain ⟨st', dirty', hexec⟩ := exec_withUnread_of_not_callStack h hins st dirty
    obtain ⟨hsp, hstack⟩ := (exec_stack_eq_or h).resolve_right hins
    refine ⟨st', dirty', fun stack ha => ⟨stack, hexec stack, fun j hj => ?_, fun e => e.trans hstack.symm⟩⟩
    rw [hstack]
    exact ha j (hsp ▸ hj)

/-- Settles O58: with the stack left as it is. -/
theorem programsCannotObserveSoundTimerOrDirty : Obligations.ProgramsCannotObserveSoundTimerOrDirty := by
  intro i s t st dirty h
  obtain ⟨st', dirty', hu⟩ := exec_withUnread h st dirty
  obtain ⟨stack', hexec, -, hsame⟩ := hu s.stack fun _ _ => rfl
  rw [hsame rfl] at hexec
  exact ⟨st', dirty', hexec⟩

/-- Settles O59: with ST and `dirty` left as they are, the instruction gives them the values it gives them with the stack
left as it is. -/
theorem staleStackEntriesAreUnobservable : Obligations.StaleStackEntriesAreUnobservable := by
  intro i s t stack ha h
  obtain ⟨st', dirty', hu⟩ := exec_withUnread h s.st s.dirty
  obtain ⟨own, hown, -, hsame⟩ := hu s.stack fun _ _ => rfl
  have ht : t = t.withUnread st' dirty' own := Host.Outcome.next.inj (h.symm.trans hown)
  have hst : t.st = st' := congrArg State.st ht
  have hdirty : t.dirty = dirty' := congrArg State.dirty ht
  obtain ⟨stack', hexec, hagree, -⟩ := hu stack ha
  subst hst hdirty
  exact ⟨stack', hexec, hagree⟩

/-! ### The host's transactions (R46) -/

/-- Settles O56, one transaction after another: a tick writes the timers, a key event that completes no wait its key's
flag, an acknowledgement `dirty`, and a framebuffer read nothing. -/
theorem hostNeverMutatesTheCore : Obligations.HostNeverMutatesTheCore := by
  refine ⟨fun s t tr h hcycle hreset hload hrelease => ?_, fun _ => rfl, fun _ _ _ => ⟨rfl, rfl⟩⟩
  cases tr with
  | cycle rnd => exact absurd rfl (hcycle rnd)
  | reset => exact absurd rfl hreset
  | load image => exact absurd rfl (hload image)
  | tick =>
    cases h
    exact ⟨rfl, rfl, rfl, rfl, rfl, rfl, rfl, fun _ => rfl, fun hn => absurd rfl hn, fun _ => rfl⟩
  | keyEvent k pressed =>
    cases h
    rcases keyEvent_cases k pressed s with ⟨x, hrun, rfl, -⟩ | ⟨-, he⟩
    · exact absurd rfl (hrelease x k hrun)
    · rw [he]
      exact ⟨rfl, rfl, rfl, rfl, rfl, rfl, rfl, fun _ => rfl, fun _ => ⟨rfl, rfl⟩, fun _ => rfl⟩
  | fbRead px py =>
    cases h
    exact ⟨rfl, rfl, rfl, rfl, rfl, rfl, rfl, fun _ => rfl, fun _ => ⟨rfl, rfl⟩, fun _ => rfl⟩
  | ackRedraw =>
    cases h
    exact ⟨rfl, rfl, rfl, rfl, rfl, rfl, rfl, fun _ => rfl, fun _ => ⟨rfl, rfl⟩, fun hn => absurd rfl hn⟩

/-! ### The redraw output (R270) -/

/-- The instructions that ask for a redraw are CLS and DRW (R37). -/
theorem redraws_eq_true_iff (i : Instr) : redraws i = true ↔ i = .cls ∨ ∃ x y n, i = .drw x y n := by
  cases i <;> simp [redraws]

/-- An instruction is executed only by a running block (R270). -/
theorem State.run_eq_running_of_nextInstr? {s : State} {i : Instr} (h : s.nextInstr? = some i) : s.run = .running := by
  unfold State.nextInstr? at h
  split at h
  · assumption
  · cases h
  · cases h

/-- A cycle asks for a redraw exactly when it raised nothing and executed an instruction that does (R270). -/
theorem cycleResult_redraw_eq_true_iff (rnd : Option Byte) (s : State) :
    (cycleResult rnd s).redraw = true ↔
      (∃ t, cycle rnd s = .next t ∧ t.Healthy) ∧ ∃ i, s.nextInstr? = some i ∧ redraws i = true := by
  unfold cycleResult State.Healthy
  cases cycle rnd s with
  | next t => cases s.nextInstr? <;> simp
  | fault r => simp
  | refused r => simp

/-- Settles O17: only a running block has a next instruction, and only CLS and DRW ask for a redraw. -/
theorem redrawOutputIsClsOrDrw : Obligations.RedrawOutputIsClsOrDrw := by
  intro s rnd
  rw [cycleResult_redraw_eq_true_iff]
  constructor
  · rintro ⟨ht, i, hi, hr⟩
    refine ⟨State.run_eq_running_of_nextInstr? hi, ht, ?_⟩
    rcases (redraws_eq_true_iff i).1 hr with rfl | ⟨x, y, n, rfl⟩
    · exact .inl hi
    · exact .inr ⟨x, y, n, hi⟩
  · rintro ⟨-, ht, hi | ⟨x, y, n, hi⟩⟩ <;> exact ⟨ht, _, hi, rfl⟩

/-! ### The opcode of an error record (R39) -/

/-- Format NNN loses no bit of the word. -/
theorem wordNNN_fields {f : Nat} {op : Word} (hf : fieldF op = f) : wordNNN f (fieldNNN op) = op := by
  have := op.isLt
  apply BitVec.eq_of_toNat_eq
  simp only [wordNNN, fieldNNN, BitVec.toNat_ofNat, ← hf, fieldF]
  omega

/-- Formats XKK and X lose no bit of the word. -/
theorem wordXKK_fields {f k : Nat} {op : Word} (hf : fieldF op = f) (hk : op.toNat % 256 = k) :
    wordXKK f (fieldX op) k = op := by
  have := op.isLt
  apply BitVec.eq_of_toNat_eq
  simp only [wordXKK, fieldX, BitVec.toNat_ofNat, ← hf, ← hk, fieldF]
  omega

/-- Formats XYN and XY lose no bit of the word. -/
theorem wordXYN_fields {f n : Nat} {op : Word} (hf : fieldF op = f) (hn : (fieldN op).val = n) :
    wordXYN f (fieldX op) (fieldY op) n = op := by
  have := op.isLt
  apply BitVec.eq_of_toNat_eq
  simp only [wordXYN, fieldX, fieldY, BitVec.toNat_ofNat, ← hf, ← hn, fieldF, fieldN]
  omega

theorem toNat_fieldKK (op : Word) : (fieldKK op).toNat = op.toNat % 256 := by
  simp [fieldKK]

theorem encode_decodeFamily0 {op : Word} (hf : fieldF op = 0) : encode (decodeFamily0 op) = op := by
  unfold decodeFamily0
  split
  · rename_i hcls
    exact hcls.symm
  · split
    · rename_i hret
      exact hret.symm
    · exact wordNNN_fields hf

theorem encode_of_decodeFamily8 {op : Word} {i : Instr} (hf : fieldF op = 8) (h : decodeFamily8 op = some i) :
    encode i = op := by
  unfold decodeFamily8 at h
  split at h <;> cases h <;> exact wordXYN_fields hf (by assumption)

theorem encode_of_decodeFamilyE {op : Word} {i : Instr} (hf : fieldF op = 0xE) (h : decodeFamilyE op = some i) :
    encode i = op := by
  unfold decodeFamilyE at h
  split at h <;> cases h <;> exact wordXKK_fields hf (by assumption)

theorem encode_of_decodeFamilyF {op : Word} {i : Instr} (hf : fieldF op = 0xF) (h : decodeFamilyF op = some i) :
    encode i = op := by
  unfold decodeFamilyF at h
  split at h <;> cases h <;> exact wordXKK_fields hf (by assumption)

/-- A recognised word is the word of the instruction it decodes to (R83, R90). -/
theorem encode_of_decode {op : Word} {i : Instr} (h : decode op = some i) : encode i = op := by
  unfold decode at h
  split at h
  case h_1 hf =>
    cases h
    exact encode_decodeFamily0 hf
  case h_2 hf | h_3 hf | h_11 hf | h_12 hf =>
    cases h
    exact wordNNN_fields hf
  case h_4 hf | h_5 hf | h_7 hf | h_8 hf | h_13 hf =>
    cases h
    exact wordXKK_fields hf (toNat_fieldKK op).symm
  case h_6 hf | h_10 hf =>
    split at h <;> cases h
    exact wordXYN_fields hf (by assumption)
  case h_14 hf =>
    cases h
    exact wordXYN_fields hf rfl
  case h_9 hf => exact encode_of_decodeFamily8 hf h
  case h_15 hf => exact encode_of_decodeFamilyE hf h
  case h_16 hf => exact encode_of_decodeFamilyF hf h
  case h_17 => cases h

/-- Settles O14, by the three ways a cycle goes: a failed fetch records no word, an unrecognised word is recorded as it
is, and an instruction records its own word, which is the one it was decoded from. -/
theorem errorRecordHoldsTheFetchedWord : Obligations.ErrorRecordHoldsTheFetchedWord := by
  intro s t rnd e hrun h he
  rcases cycle_running_cases rnd s hrun with ⟨k, hf, hc⟩ | ⟨op, hf, -, hc⟩ | ⟨op, i, hf, hd, hc⟩ <;> rw [hf]
  · cases hc.symm.trans h
    cases he
    exact ⟨fun _ hop => (nomatch hop), fun _ hk => ⟨rfl, Except.error.inj hk⟩⟩
  · cases hc.symm.trans h
    cases he
    exact ⟨fun _ hop => congrArg some (Except.ok.inj hop), fun _ hk => nomatch hk⟩
  · refine ⟨fun _ hop => ?_, fun _ hk => nomatch hk⟩
    rcases exec_next_cases i _ t (hc.symm.trans h) with ⟨k, rfl⟩ | ⟨hsame, -⟩ | ⟨x, -, rfl⟩
    · cases he
      exact congrArg some ((encode_of_decode hd).trans (Except.ok.inj hop))
    · exact nomatch (he.symm.trans hsame).trans hrun
    · cases he

end Sys2Proof.Machine

/-! PROOFS. Family 20_memory.md: the instruction a step runs (O6, O7), the fetch of bytes that Fx33 and Fx55 stored
(O52), and the canonical form of memory (O53). -/

namespace Sys2Proof.Machine

/-! ### Canonical memories (log 7) -/

/-- The entries of a memory in canonical form are the addresses that do not read as after reset, each with the byte it
reads as. -/
theorem Memory.mem_iff_read_of_wf {c : Config} {m : Memory} (h : Memory.wf c m = true) (p : Host.Cell) :
    p ∈ m ↔ Memory.read c m p.1 = p.2 ∧ p.2 ≠ Memory.base c p.1 := by
  obtain ⟨rising, listed⟩ := (Memory.wf_iff c m).1 h
  clear h
  induction m with
  | nil => simp [Memory.read, eq_comm]
  | cons q m ih =>
    obtain ⟨head_lt, rising⟩ := List.pairwise_cons.1 rising
    obtain ⟨⟨-, head_ne⟩, listed⟩ := List.forall_mem_cons.1 listed
    have tail := ih rising listed
    by_cases hk : p.1 = q.1
    · have absent : p ∉ m := fun hp => (head_lt p hp).ne hk.symm
      simp only [Memory.read, hk, if_true, List.mem_cons, absent, or_false]
      constructor
      · rintro rfl
        exact ⟨rfl, head_ne⟩
      · exact fun ⟨e, _⟩ => Prod.ext hk e.symm
    · have other : p ≠ q := fun e => hk (congrArg Prod.fst e)
      simpa only [Memory.read, hk, if_false, List.mem_cons, other, false_or] using tail

/-- A memory in canonical form lists no pair twice. -/
theorem Memory.nodup_of_wf {c : Config} {m : Memory} (h : Memory.wf c m = true) : m.Nodup :=
  ((Memory.wf_iff c m).1 h).1.imp fun hlt e => hlt.ne (congrArg Prod.fst e)

/-- Settles O53: the reads fix the entries, and the rising addresses fix their order. -/
theorem canonicalMemoriesAreEqual : Obligations.CanonicalMemoriesAreEqual := by
  intro c m₁ m₂ h₁ h₂ hread
  have same : ∀ p, p ∈ m₁ ↔ p ∈ m₂ := fun p => by
    rw [Memory.mem_iff_read_of_wf h₁, Memory.mem_iff_read_of_wf h₂, hread]
  have perm : m₁.Perm m₂ := (List.perm_ext_iff_of_nodup (Memory.nodup_of_wf h₁) (Memory.nodup_of_wf h₂)).2 same
  exact perm.eq_of_pairwise (fun _ _ _ _ hab hba => absurd hab hba.asymm) ((Memory.wf_iff c m₁).1 h₁).1
    ((Memory.wf_iff c m₂).1 h₂).1

/-! ### The instruction a step runs (R61, R80-R82, R270) -/

/-- A fetch is accepted at 0xFFE or below, and under PC_CHECK = Strict at an aligned PC (R80, R81). -/
theorem FetchOk.of_pc_le {s : State} (hpc : s.pc.toNat ≤ 0xFFE) (ha : s.cfg.pcCheck = .strict → PcAligned s.pc) :
    FetchOk s := by
  refine ⟨.inr (by omega), ?_⟩
  cases hc : s.cfg.pcCheck with
  | strict => exact .inl (ha hc)
  | permissive => exact .inr rfl

theorem FetchOk.fetch_eq {s : State} (hf : FetchOk s) : fetch s = .ok s.wordAtPc := (fetch_eq_ok s _).2 ⟨hf, rfl⟩

/-- A cycle of a running block executes the instruction whose word stands at a PC that a fetch accepts. -/
theorem FetchOk.cycle_eq_exec {s : State} (hf : FetchOk s) (hrun : s.run = .running) {i : Instr}
    (hd : decode s.wordAtPc = some i) (rnd : Option Byte) : cycle rnd s = exec i (s.beginCycle rnd) := by
  rcases cycle_running_cases rnd s hrun with ⟨k, hk, -⟩ | ⟨op, hop, hn, -⟩ | ⟨op, j, hop, hj, hc⟩
  · exact nomatch hf.fetch_eq.symm.trans hk
  · obtain ⟨-, rfl⟩ := (fetch_eq_ok s op).1 hop
    exact nomatch hd.symm.trans hn
  · obtain ⟨-, rfl⟩ := (fetch_eq_ok s op).1 hop
    cases hd.symm.trans hj
    exact hc

/-- With nothing pending a step is a cycle with a free draw. -/
theorem step_of_pending_nil {s : State} (h : s.pending = []) : step s = cycle none s := by
  simp only [step, h]

/-- With a transaction pending a step takes it from the schedule and performs it (R280). -/
theorem step_of_pending_cons {s : State} {tr : Transaction} {rest : List Transaction} (h : s.pending = tr :: rest) :
    step s = transact tr { s with pending := rest } := by
  simp only [step, h]

/-- Settles O6: either step is a cycle, and the schedule has no part in the fetch. -/
theorem stepRunsDecodedInstruction : Obligations.StepRunsDecodedInstruction := by
  intro s i hrun hpc ha hd
  have hf : FetchOk s := .of_pc_le hpc ha
  refine ⟨fun hp => ?_, fun b rest hp => ?_⟩
  · exact (step_of_pending_nil hp).trans (hf.cycle_eq_exec hrun hd none)
  · have hf' : FetchOk { s with pending := rest } := hf
    exact (step_of_pending_cons hp).trans (hf'.cycle_eq_exec hrun hd (some b))

/-! ### A placed word (log 10) -/

/-- The block is left at a PC that a fetch accepts. -/
theorem State.fetchOk_withFetchWord (s : State) (nbits w : Nat) : FetchOk (s.withFetchWord nbits w) := by
  change FetchOk { s with pc := s.fetchPc }
  unfold State.fetchPc
  split
  · assumption
  · exact .of_pc_le (by decide : (0x200 : Word).toNat ≤ 0xFFE) fun _ => (by decide : PcAligned 0x200)

/-- The bytes at PC are the placed word's, high byte first (R61). -/
theorem State.wordAtPc_withFetchWord {s : State} (h : Memory.wf s.cfg s.mem = true) (nbits w : Nat) :
    (s.withFetchWord nbits w).wordAtPc =
      composeWord (highByte (tableWord nbits w)) (lowByte (tableWord nbits w)) := by
  have hpc : s.fetchPc.toNat ≤ 0xFFE := (s.fetchOk_withFetchWord nbits w).pc_le
  have hbyte (d : Nat) := State.byte_store s s.fetchPc.toNat d
    [highByte (tableWord nbits w), lowByte (tableWord nbits w)] h (.inr (by simp; omega))
  have hhi : (s.withFetchWord nbits w).byte s.fetchPc.toNat = highByte (tableWord nbits w) :=
    (hbyte _).trans (by simp)
  have hlo : (s.withFetchWord nbits w).byte (s.fetchPc.toNat + 1) = lowByte (tableWord nbits w) :=
    (hbyte _).trans (by simp)
  exact congrArg₂ composeWord hhi hlo

/-- Settles O7: the placed word is the word at a PC that a fetch accepts, in a running block with nothing pending. -/
theorem placedWordRunsNext : Obligations.PlacedWordRunsNext := by
  intro s w i hwf hd
  have hword : decode (s.withFetchWord 16 w).wordAtPc = some i :=
    (congrArg decode (State.wordAtPc_withFetchWord hwf 16 w)).trans hd
  exact (step_of_pending_nil rfl).trans ((s.fetchOk_withFetchWord 16 w).cycle_eq_exec rfl hword none)

/-! ### Stored code (R74, R240, R241, R311) -/

/-- An Fx55 that raised nothing stored V0, …, Vx, in range. -/
theorem exec_ldStore_stores {s t : State} {x : Reg} (h : exec (.ldStore x) s = .next t) (ht : t.Healthy) :
    InRange s.i.toNat (x.val + 1) ∧ t = (s.store s.i.toNat (s.regsUpTo x)).advance := by
  simp only [exec, execLdStore] at h
  split at h <;> cases h
  · exact ⟨by assumption, rfl⟩
  · exact nomatch ht

/-- An Fx33 that raised nothing stored the three digits, in range. -/
theorem exec_ldB_stores {s t : State} {x : Reg} (h : exec (.ldB x) s = .next t) (ht : t.Healthy) :
    InRange s.i.toNat 3 ∧ t = (s.store s.i.toNat (decimalDigits (s.reg x))).advance := by
  simp only [exec, execLdB] at h
  split at h <;> cases h
  · exact ⟨by assumption, rfl⟩
  · exact nomatch ht

/-- What R241 says an address reads as after Fx55 is what it reads as. -/
theorem byte_of_byteAfterStore {s t : State} {x : Reg} (hwf : Memory.wf s.cfg s.mem = true)
    (h : exec (.ldStore x) s = .next t) (ht : t.Healthy) {a : Nat} {b : Byte} (hb : ByteAfterStore x s a b) :
    t.byte a = b := by
  obtain ⟨hr, rfl⟩ := exec_ldStore_stores h ht
  obtain ⟨stored, kept⟩ := hb
  have hlen := State.length_regsUpTo s x
  unfold InRange at hr
  rw [State.byte_advance, State.byte_store _ _ _ _ hwf (.inr (by omega))]
  split
  · have := x.isLt
    rw [State.getElem_regsUpTo]
    exact (stored ⟨a - s.i.toNat, by omega⟩ (by simp only; omega) (by simp only; omega)).symm
  · exact (kept (by omega)).symm

/-- What R240 says an address reads as after Fx33 is what it reads as. -/
theorem byte_of_byteAfterBcd {s t : State} {x : Reg} (hwf : Memory.wf s.cfg s.mem = true)
    (h : exec (.ldB x) s = .next t) (ht : t.Healthy) {a : Nat} {b : Byte} (hb : ByteAfterBcd x s a b) :
    t.byte a = b := by
  obtain ⟨hr, rfl⟩ := exec_ldB_stores h ht
  obtain ⟨hundreds, tens, ones, kept⟩ := hb
  have hlen := length_decimalDigits (s.reg x)
  unfold InRange at hr
  rw [State.byte_advance, State.byte_store _ _ _ _ hwf (.inr (by omega))]
  split
  · obtain rfl | rfl | rfl : a = s.i.toNat ∨ a = s.i.toNat + 1 ∨ a = s.i.toNat + 2 := by omega
    · simp [decimalDigits, ← hundreds rfl]
    · simp [decimalDigits, ← tens rfl]
    · simp [decimalDigits, ← ones rfl]
  · exact (kept (by omega)).symm

/-- Settles O52: a fetch reads the memory it finds, and that memory holds the bytes the rules give. -/
theorem storedCodeIsFetched : Obligations.StoredCodeIsFetched := by
  intro s t u x hi lo hwf ht hmem hcfg hpc ha
  have hf : FetchOk u := .of_pc_le hpc ha
  have hbyte (a : Nat) : u.byte a = t.byte a := by rw [State.byte, hmem, hcfg, State.byte]
  have fetched (hhi : t.byte u.pc.toNat = hi) (hlo : t.byte (u.pc.toNat + 1) = lo) :
      fetch u = .ok (composeWord hi lo) := by
    rw [hf.fetch_eq, State.wordAtPc, hbyte, hbyte, hhi, hlo]
  refine ⟨fun h hhi hlo => fetched ?_ ?_, fun h hhi hlo => fetched ?_ ?_⟩
  · exact byte_of_byteAfterStore hwf h ht hhi
  · exact byte_of_byteAfterStore hwf h ht hlo
  · exact byte_of_byteAfterBcd hwf h ht hhi
  · exact byte_of_byteAfterBcd hwf h ht hlo

end Sys2Proof.Machine

/-! PROOFS. Family 30_encoding.md: decoder, encoder and the opcode map agree (O1 to O5), and the errors of a fetch and
of an unrecognised word (O8 to O10). -/

namespace Sys2Proof.Machine

/-! ### The fields of an encoded word (R83) -/

/-- Format NNN keeps its address literal. -/
theorem fieldNNN_wordNNN (f : Nat) (nnn : Addr) : fieldNNN (wordNNN f nnn) = nnn := by
  have := nnn.isLt
  apply BitVec.eq_of_toNat_eq
  simp only [fieldNNN, wordNNN, BitVec.toNat_ofNat]
  omega

/-- Formats XKK and X keep their register index. -/
theorem fieldX_wordXKK (f : Nat) (x : Reg) {k : Nat} (hk : k < 2 ^ 8) : fieldX (wordXKK f x k) = x := by
  have := x.isLt
  apply Fin.ext
  simp only [fieldX, wordXKK, BitVec.toNat_ofNat]
  omega

/-- Format XKK keeps its byte literal. -/
theorem fieldKK_wordXKK (f : Nat) (x : Reg) (kk : Byte) : fieldKK (wordXKK f x kk.toNat) = kk := by
  have := kk.isLt
  apply BitVec.eq_of_toNat_eq
  simp only [toNat_fieldKK, wordXKK, BitVec.toNat_ofNat]
  omega

/-- Formats XYN and XY keep their first register index. -/
theorem fieldX_wordXYN (f : Nat) (x y : Reg) {n : Nat} (hn : n < 16) : fieldX (wordXYN f x y n) = x := by
  have := x.isLt
  have := y.isLt
  apply Fin.ext
  simp only [fieldX, wordXYN, BitVec.toNat_ofNat]
  omega

/-- Formats XYN and XY keep their second register index. -/
theorem fieldY_wordXYN (f : Nat) (x y : Reg) {n : Nat} (hn : n < 16) : fieldY (wordXYN f x y n) = y := by
  have := y.isLt
  apply Fin.ext
  simp only [fieldY, wordXYN, BitVec.toNat_ofNat]
  omega

/-- Format XYN keeps its low nibble. -/
theorem fieldN_wordXYN (f : Nat) (x y : Reg) (n : Fin 16) : fieldN (wordXYN f x y n.val) = n := by
  have := n.isLt
  apply Fin.ext
  simp only [fieldN, wordXYN, BitVec.toNat_ofNat]
  omega

/-! ### The fields a mask selects (R86) -/

theorem fieldF_lt (op : Word) : fieldF op < 16 := by
  have := op.isLt
  unfold fieldF
  omega

/-- Mask 0xF000 selects the family nibble. -/
theorem fieldF_of_and_F000 {op m : Word} (h : op &&& 0xF000 = m) : fieldF op = m.toNat / 4096 := by
  have hf := fieldF_lt op
  have mask := Laws.RowPattern.mask_F000 (fieldF op) (fieldNNN op).toNat (fieldNNN op).isLt
  rw [← wordNNN, wordNNN_fields rfl, h] at mask
  rw [mask, BitVec.toNat_ofNat]
  omega

/-- Mask 0xF00F selects the family nibble and the low nibble. -/
theorem fields_of_and_F00F {op m : Word} (h : op &&& 0xF00F = m) :
    fieldF op = m.toNat / 4096 ∧ (fieldN op).val = m.toNat % 16 := by
  have hf := fieldF_lt op
  have hn := (fieldN op).isLt
  have mask := Laws.RowPattern.mask_F00F (fieldF op) _ _ _ (fieldX op).isLt (fieldY op).isLt hn
  rw [← wordXYN, wordXYN_fields rfl rfl, h] at mask
  rw [mask, BitVec.toNat_ofNat]
  omega

/-- Mask 0xF0FF selects the family nibble and the low byte. -/
theorem fields_of_and_F0FF {op m : Word} (h : op &&& 0xF0FF = m) :
    fieldF op = m.toNat / 4096 ∧ op.toNat % 256 = m.toNat % 256 := by
  have hf := fieldF_lt op
  have hk : op.toNat % 256 < 256 := Nat.mod_lt _ (by decide)
  have mask := Laws.RowPattern.mask_F0FF (fieldF op) _ _ (fieldX op).isLt hk
  rw [← wordXKK, wordXKK_fields rfl rfl, h] at mask
  rw [mask, BitVec.toNat_ofNat]
  omega

/-- Mask 0xFFFF selects the whole word. -/
theorem eq_of_and_FFFF {op m : Word} (h : op &&& 0xFFFF = m) : op = m :=
  BitVec.and_allOnes.symm.trans h

/-! ### The rows of the opcode map (R85, R86) -/

/-- The instruction that the row of `j` reads from a word: `j` with the operands the word's fields give. In family 0 the
row of SYS gives way to CLS and RET (R85). -/
def readRow (j : Instr) (op : Word) : Instr :=
  match j with
  | .sys _ => decodeFamily0 op
  | .cls => .cls
  | .ret => .ret
  | .jp _ => .jp (fieldNNN op)
  | .call _ => .call (fieldNNN op)
  | .seImm _ _ => .seImm (fieldX op) (fieldKK op)
  | .sneImm _ _ => .sneImm (fieldX op) (fieldKK op)
  | .seReg _ _ => .seReg (fieldX op) (fieldY op)
  | .ldImm _ _ => .ldImm (fieldX op) (fieldKK op)
  | .addImm _ _ => .addImm (fieldX op) (fieldKK op)
  | .ldReg _ _ => .ldReg (fieldX op) (fieldY op)
  | .orReg _ _ => .orReg (fieldX op) (fieldY op)
  | .andReg _ _ => .andReg (fieldX op) (fieldY op)
  | .xorReg _ _ => .xorReg (fieldX op) (fieldY op)
  | .addReg _ _ => .addReg (fieldX op) (fieldY op)
  | .sub _ _ => .sub (fieldX op) (fieldY op)
  | .shr _ _ => .shr (fieldX op) (fieldY op)
  | .subn _ _ => .subn (fieldX op) (fieldY op)
  | .shl _ _ => .shl (fieldX op) (fieldY op)
  | .sneReg _ _ => .sneReg (fieldX op) (fieldY op)
  | .ldI _ => .ldI (fieldNNN op)
  | .jpV0 _ => .jpV0 (fieldNNN op)
  | .rnd _ _ => .rnd (fieldX op) (fieldKK op)
  | .drw _ _ _ => .drw (fieldX op) (fieldY op) (fieldN op)
  | .skp _ => .skp (fieldX op)
  | .sknp _ => .sknp (fieldX op)
  | .ldVxDt _ => .ldVxDt (fieldX op)
  | .ldK _ => .ldK (fieldX op)
  | .ldDt _ => .ldDt (fieldX op)
  | .ldSt _ => .ldSt (fieldX op)
  | .addI _ => .addI (fieldX op)
  | .ldF _ => .ldF (fieldX op)
  | .ldB _ => .ldB (fieldX op)
  | .ldStore _ => .ldStore (fieldX op)
  | .ldLoad _ => .ldLoad (fieldX op)

/-- A word that matches a row decodes to what the row reads from it: the mask fixes the nibbles `decode` looks at. -/
theorem decode_of_matches_row (j : Instr) {op : Word} (h : op &&& j.pattern.1 = j.pattern.2) :
    decode op = some (readRow j op) := by
  cases j
  case cls | ret =>
    cases eq_of_and_FFFF h
    rfl
  case sys | jp | call | seImm | sneImm | ldImm | addImm | ldI | jpV0 | rnd | drw =>
    simp [decode, fieldF_of_and_F000 h, Instr.pattern, readRow]
  case seReg | sneReg =>
    obtain ⟨hf, hn⟩ := fields_of_and_F00F h
    simp [decode, hf, hn, Instr.pattern, readRow]
  case ldReg | orReg | andReg | xorReg | addReg | sub | shr | subn | shl =>
    obtain ⟨hf, hn⟩ := fields_of_and_F00F h
    simp [decode, decodeFamily8, hf, hn, Instr.pattern, readRow]
  case skp | sknp =>
    obtain ⟨hf, hk⟩ := fields_of_and_F0FF h
    simp [decode, decodeFamilyE, hf, hk, Instr.pattern, readRow]
  case ldVxDt | ldK | ldDt | ldSt | addI | ldF | ldB | ldStore | ldLoad =>
    obtain ⟨hf, hk⟩ := fields_of_and_F0FF h
    simp [decode, decodeFamilyF, hf, hk, Instr.pattern, readRow]

/-- Family 0 reads CLS from 00E0, RET from 00EE, and SYS from every other word (R85). -/
theorem decodeFamily0_cases (op : Word) :
    (op = 0x00E0 ∧ decodeFamily0 op = .cls) ∨ (op = 0x00EE ∧ decodeFamily0 op = .ret) ∨
      decodeFamily0 op = .sys (fieldNNN op) := by
  unfold decodeFamily0
  split
  · exact .inl ⟨by assumption, rfl⟩
  · split
    · exact .inr (.inl ⟨by assumption, rfl⟩)
    · exact .inr (.inr rfl)

/-- The word of a well-formed SYS is not one of CLS or RET (R85, R100). -/
theorem decodeFamily0_encode_sys {nnn : Addr} (h : (Instr.sys nnn).wellFormed = true) :
    decodeFamily0 (encode (.sys nnn)) = .sys nnn := by
  have hnnn : fieldNNN (encode (.sys nnn)) = nnn := fieldNNN_wordNNN 0 nnn
  rcases decodeFamily0_cases (encode (.sys nnn)) with ⟨hcls, -⟩ | ⟨hret, -⟩ | hsys
  · obtain rfl : nnn = 0x0E0 := hnnn.symm.trans (congrArg fieldNNN hcls)
    exact absurd h (by decide)
  · obtain rfl : nnn = 0x0EE := hnnn.symm.trans (congrArg fieldNNN hret)
    exact absurd h (by decide)
  · rw [hsys, hnnn]

/-- A row reads its instruction back from the instruction's word, operand by operand. -/
theorem readRow_encode {i : Instr} (h : i.wellFormed = true) : readRow i (encode i) = i := by
  cases i
  case sys => exact decodeFamily0_encode_sys h
  case cls | ret => rfl
  case jp | call | ldI | jpV0 => simp only [readRow, encode, fieldNNN_wordNNN]
  case seImm x kk | sneImm x kk | ldImm x kk | addImm x kk | rnd x kk =>
    simp only [readRow, encode, fieldX_wordXKK _ x kk.isLt, fieldKK_wordXKK]
  case drw x y n =>
    simp only [readRow, encode, fieldX_wordXYN _ x y n.isLt, fieldY_wordXYN _ x y n.isLt, fieldN_wordXYN]
  case seReg | ldReg | orReg | andReg | xorReg | addReg | sub | shr | subn | shl | sneReg =>
    simp (disch := decide) only [readRow, encode, fieldX_wordXYN, fieldY_wordXYN]
  case skp | sknp | ldVxDt | ldK | ldDt | ldSt | addI | ldF | ldB | ldStore | ldLoad =>
    simp (disch := decide) only [readRow, encode, fieldX_wordXKK]

/-- The word of every instruction matches the instruction's row. -/
theorem encode_matches_row : ∀ i : Instr, encode i &&& i.pattern.1 = i.pattern.2
  | .sys nnn => Laws.RowPattern.sys nnn
  | .cls => Laws.RowPattern.cls
  | .ret => Laws.RowPattern.ret
  | .jp nnn => Laws.RowPattern.jp nnn
  | .call nnn => Laws.RowPattern.call nnn
  | .seImm x kk => Laws.RowPattern.seImm x kk
  | .sneImm x kk => Laws.RowPattern.sneImm x kk
  | .seReg x y => Laws.RowPattern.seReg x y
  | .ldImm x kk => Laws.RowPattern.ldImm x kk
  | .addImm x kk => Laws.RowPattern.addImm x kk
  | .ldReg x y => Laws.RowPattern.ldReg x y
  | .orReg x y => Laws.RowPattern.orReg x y
  | .andReg x y => Laws.RowPattern.andReg x y
  | .xorReg x y => Laws.RowPattern.xorReg x y
  | .addReg x y => Laws.RowPattern.addReg x y
  | .sub x y => Laws.RowPattern.sub x y
  | .shr x y => Laws.RowPattern.shr x y
  | .subn x y => Laws.RowPattern.subn x y
  | .shl x y => Laws.RowPattern.shl x y
  | .sneReg x y => Laws.RowPattern.sneReg x y
  | .ldI nnn => Laws.RowPattern.ldI nnn
  | .jpV0 nnn => Laws.RowPattern.jpV0 nnn
  | .rnd x kk => Laws.RowPattern.rnd x kk
  | .drw x y n => Laws.RowPattern.drw x y n
  | .skp x => Laws.RowPattern.skp x
  | .sknp x => Laws.RowPattern.sknp x
  | .ldVxDt x => Laws.RowPattern.ldVxDt x
  | .ldK x => Laws.RowPattern.ldK x
  | .ldDt x => Laws.RowPattern.ldDt x
  | .ldSt x => Laws.RowPattern.ldSt x
  | .addI x => Laws.RowPattern.addI x
  | .ldF x => Laws.RowPattern.ldF x
  | .ldB x => Laws.RowPattern.ldB x
  | .ldStore x => Laws.RowPattern.ldStore x
  | .ldLoad x => Laws.RowPattern.ldLoad x

/-! ### Decoder and encoder (R83, R90) -/

/-- Settles O1: the word of an instruction matches its row, so it decodes to what the row reads, which is the
instruction. -/
theorem decodeOfEncodeIsIdentity : Obligations.DecodeOfEncodeIsIdentity := fun i hwf =>
  (decode_of_matches_row i (encode_matches_row i)).trans (congrArg some (readRow_encode hwf))

/-- No word decodes to a SYS of CLS's or RET's word (R85). -/
theorem wellFormed_of_decode {op : Word} {i : Instr} (h : decode op = some i) : i.wellFormed = true := by
  cases i with
  | sys nnn =>
    have hword : decode (encode (.sys nnn)) = some (.sys nnn) := (encode_of_decode h).symm ▸ h
    have hcls : nnn ≠ 0x0E0 := by rintro rfl; exact absurd hword (by decide)
    have hret : nnn ≠ 0x0EE := by rintro rfl; exact absurd hword (by decide)
    exact Bool.and_eq_true_iff.2 ⟨bne_iff_ne.2 hcls, bne_iff_ne.2 hret⟩
  | _ => rfl

/-- Settles O2: no format loses a bit of the word, and only a SYS can be ill formed. -/
theorem encodeOfDecodeIsIdentity : Obligations.EncodeOfDecodeIsIdentity := fun _ _ h =>
  ⟨encode_of_decode h, wellFormed_of_decode h⟩

/-! ### The mask and match columns (R85, R86) -/

/-- What a row reads is an instruction of that row, but for the two words of CLS and RET in the row of SYS (R85). -/
theorem pattern_readRow (j : Instr) (op : Word) :
    (readRow j op).pattern = j.pattern ∨
      (j.pattern = (0xF000, 0x0000) ∧ ((op = 0x00E0 ∧ readRow j op = .cls) ∨ (op = 0x00EE ∧ readRow j op = .ret))) := by
  cases j with
  | sys nnn =>
    rcases decodeFamily0_cases op with hcls | hret | hsys
    · exact .inr ⟨rfl, .inl hcls⟩
    · exact .inr ⟨rfl, .inr hret⟩
    · left
      change (decodeFamily0 op).pattern = _
      rw [hsys]
      rfl
  | _ => exact .inl rfl

/-- Settles O3: a decoded word is its instruction's word, which matches its row, and a word that matches a row decodes
to what the row reads. -/
theorem decodeFollowsMaskAndMatch : Obligations.DecodeFollowsMaskAndMatch := by
  refine ⟨fun op i h => ?_, fun op j h => ⟨readRow j op, decode_of_matches_row j h, pattern_readRow j op⟩⟩
  rw [← encode_of_decode h]
  exact encode_matches_row i

/-! ### The unrecognised words (R88) -/

theorem decodeFamily8_eq_none_iff (op : Word) :
    decodeFamily8 op = none ↔ op.toNat % 16 ∈ [0x8, 0x9, 0xA, 0xB, 0xC, 0xD, 0xF] := by
  have hn : (fieldN op).val = op.toNat % 16 := rfl
  unfold decodeFamily8
  rw [hn]
  split
  case h_10 =>
    simp_all
    omega
  all_goals simp [*]

theorem decodeFamilyE_eq_none_iff (op : Word) : decodeFamilyE op = none ↔ op.toNat % 256 ∉ [0x9E, 0xA1] := by
  unfold decodeFamilyE
  split
  case h_3 => simp_all
  all_goals simp [*]

theorem decodeFamilyF_eq_none_iff (op : Word) :
    decodeFamilyF op = none ↔ op.toNat % 256 ∉ [0x07, 0x0A, 0x15, 0x18, 0x1E, 0x29, 0x33, 0x55, 0x65] := by
  unfold decodeFamilyF
  split
  case h_10 => simp_all
  all_goals simp [*]

/-- Only families 5, 8, 9, E and F have unrecognised words (R88). -/
theorem decode_eq_none_iff (op : Word) :
    decode op = none ↔
      (fieldF op = 0x5 ∧ (fieldN op).val ≠ 0) ∨ (fieldF op = 0x8 ∧ decodeFamily8 op = none) ∨
      (fieldF op = 0x9 ∧ (fieldN op).val ≠ 0) ∨ (fieldF op = 0xE ∧ decodeFamilyE op = none) ∨
      (fieldF op = 0xF ∧ decodeFamilyF op = none) := by
  have hf := fieldF_lt op
  unfold decode
  split
  case h_17 =>
    simp_all only [imp_false]
    omega
  all_goals simp [*]

/-- Settles O4, family by family. -/
theorem unrecognisedWordsAreTheListedOnes : Obligations.UnrecognisedWordsAreTheListedOnes := by
  intro op
  rw [decode_eq_none_iff, decodeFamily8_eq_none_iff, decodeFamilyE_eq_none_iff, decodeFamilyF_eq_none_iff]
  rfl

/-- Settles O5, by evaluating the decoder. -/
theorem sampleWordsDecode : Obligations.SampleWordsDecode := by
  unfold Obligations.SampleWordsDecode
  decide

/-! ### The errors of a fetch and of an unrecognised word (R80, R81, R87) -/

/-- A cycle whose fetch fails halts with that error and no opcode. -/
theorem cycle_of_fetch_error {s : State} (hrun : s.run = .running) {k : ErrorKind} (hf : fetch s = .error k)
    (rnd : Option Byte) : cycle rnd s = .next ((s.beginCycle rnd).halt k none) := by
  rcases cycle_running_cases rnd s hrun with ⟨k', hk, hc⟩ | ⟨op, hop, -⟩ | ⟨op, i, hop, -⟩
  · cases hf.symm.trans hk
    exact hc
  · exact nomatch hf.symm.trans hop
  · exact nomatch hf.symm.trans hop

/-- A cycle that fetches an unrecognised word halts with DecodeError and that word. -/
theorem cycle_of_decode_none {s : State} (hrun : s.run = .running) {op : Word} (hf : fetch s = .ok op)
    (hd : decode op = none) (rnd : Option Byte) :
    cycle rnd s = .next ((s.beginCycle rnd).halt .decodeError (some op)) := by
  rcases cycle_running_cases rnd s hrun with ⟨k, hk, -⟩ | ⟨op', hop, -, hc⟩ | ⟨op', i, hop, hi, -⟩
  · exact nomatch hf.symm.trans hk
  · cases hf.symm.trans hop
    exact hc
  · cases hf.symm.trans hop
    exact nomatch hd.symm.trans hi

/-- Settles O8: the range check is the first check of a fetch. -/
theorem fetchOutOfRangeRaises : Obligations.FetchOutOfRangeRaises := by
  intro s rnd hrun hpc
  have hf : fetch s = .error .outOfRange := (fetch_eq_error s _).2 (.inl ⟨rfl, by unfold InRange; omega⟩)
  exact ⟨_, cycle_of_fetch_error hrun hf rnd, rfl⟩

/-- Settles O9: past the range check a fetch fails under Strict at an unaligned PC, and Permissive accepts every PC. -/
theorem badPcRaisesUnderStrictOnly : Obligations.BadPcRaisesUnderStrictOnly := by
  intro s rnd hrun hpc
  refine ⟨fun hstrict hbad => ?_, fun hperm => ?_⟩
  · have hunaligned : ¬ PcAligned s.pc := by unfold PcAligned; omega
    have hf : fetch s = .error .badPc :=
      (fetch_eq_error s _).2 (.inr ⟨rfl, .inr (by omega), hunaligned, hstrict⟩)
    exact ⟨_, cycle_of_fetch_error hrun hf rnd, rfl⟩
  · exact (FetchOk.of_pc_le hpc fun hstrict => nomatch hstrict.symm.trans hperm).fetch_eq

/-- Settles O10: the fetched word is the record's opcode. -/
theorem unrecognisedWordRaisesDecodeError : Obligations.UnrecognisedWordRaisesDecodeError :=
  fun _ rnd _ hrun hf hd => ⟨_, cycle_of_decode_none hrun hf hd rnd, rfl⟩

end Sys2Proof.Machine

/-! PROOFS. Family 40_control_flow.md: SYS (O20), the jumps (O21), CALL (O22), RET (O23), and the return behind a CALL
(O24). -/

namespace Sys2Proof.Machine

/-! ### CALL and RET (R102, R103, R106) -/

/-- `exec_ret_of_pos` with the popped entry named by its index: RET jumps to entry `j` when `j + 1` are in use. -/
theorem exec_ret_of_succ {s : State} {j : Fin 16} (h : s.sp.val = j.val + 1) :
    exec .ret s = .next { s with pc := s.stack[j.val], sp := j.castSucc } := by
  have htop : s.sp.val - 1 = j.val := by omega
  rw [exec_ret_of_pos (by omega)]
  simp only [htop]
  rfl

/-- Settles O24: the entry CALL pushed is PC + 2, and RET jumps to the entry it pops. -/
theorem retReturnsBehindItsCall : Obligations.RetReturnsBehindItsCall := by
  intro s t u w nnn j hcall _ hj hsp hentry hret
  have hlt : s.sp.val < 16 := by omega
  cases (exec_call_of_lt nnn hlt).symm.trans hcall
  have hdepth : u.sp.val = j.val + 1 := by rw [hsp, ← hj]
  cases (exec_ret_of_succ hdepth).symm.trans hret
  calc u.stack[j.val]
    _ = (s.stack.set s.sp.val (s.pc + 2) hlt)[j.val] := hentry
    _ = s.pc + 2 := by simp [hj]

/-- Settles O22: the push writes the one entry SP names, and the overflow record holds CALL's own word. -/
theorem callPushesOrOverflows : Obligations.CallPushesOrOverflows := by
  intro s nnn
  refine ⟨fun hlt => ?_, fun hfull => ⟨_, exec_call_of_full nnn hfull, rfl⟩⟩
  refine ⟨_, exec_call_of_lt nnn hlt, zextAddr_toNat nnn, rfl, fun j => ?_, rfl, fun _ => rfl⟩
  simp only [Vector.getElem_set, eq_comm]

/-- Settles O23: `exec_ret_of_succ` on a nonempty stack, `exec_ret_of_empty` on an empty one. -/
theorem retPopsOrUnderflows : Obligations.RetPopsOrUnderflows := by
  intro s
  exact ⟨fun j hj => ⟨_, exec_ret_of_succ hj, rfl, rfl, rfl, fun _ => rfl⟩,
    fun hempty => ⟨_, exec_ret_of_empty hempty, rfl⟩⟩

/-! ### SYS (R10, R100) -/

theorem exec_sys_of_fault {s : State} (nnn : Addr) (h : s.cfg.sysMode = .fault) :
    exec (.sys nnn) s = .next (s.halt .sysUnsupported (some (encode (.sys nnn)))) := by
  simp only [exec, execSys, h, raiseIn_eq_next]

theorem exec_sys_of_ignore {s : State} (nnn : Addr) (h : s.cfg.sysMode = .ignore) :
    exec (.sys nnn) s = .next s.advance := by
  simp only [exec, execSys, h]

/-- The word of SYS is its address literal: its family nibble is 0 (R83, R86). -/
theorem encode_sys (nnn : Addr) : encode (.sys nnn) = BitVec.ofNat 16 nnn.toNat := by
  simp only [encode, wordNNN, Nat.zero_mul, Nat.zero_add]

/-- Settles O20: SYS_MODE alone decides between the error and a plain advance. -/
theorem sysFaultsOrIsIgnored : Obligations.SysFaultsOrIsIgnored := by
  intro s nnn
  refine ⟨fun hfault => ?_, fun hignore => ⟨_, exec_sys_of_ignore nnn hignore, rfl, fun _ => rfl⟩⟩
  rw [← encode_sys nnn]
  exact ⟨_, exec_sys_of_fault nnn hfault, rfl⟩

/-! ### JP and JP V0 (R101, R104) -/

/-- The target of JP V0 is the exact sum of the address literal and the byte: it cannot wrap (R104). -/
theorem toNat_jpV0_target (nnn : Addr) (b : Byte) : (zextAddr nnn + b.setWidth 16).toNat = nnn.toNat + b.toNat := by
  have hn := nnn.isLt
  have hb := b.isLt
  rw [BitVec.toNat_add, zextAddr_toNat, BitVec.toNat_setWidth]
  omega

/-- Settles O21: both jumps write PC alone, and neither target wraps. -/
theorem jumpsSetThePc : Obligations.JumpsSetThePc := by
  intro s nnn
  exact ⟨⟨_, rfl, zextAddr_toNat nnn, rfl, fun _ => rfl⟩, ⟨_, rfl, toNat_jpV0_target nnn (s.reg 0), rfl, fun _ => rfl⟩⟩

end Sys2Proof.Machine

/-! PROOFS. Family 41_skip.md: the six skips (O25). -/

namespace Sys2Proof.Machine

/-- `State.skipIf_eq` with the computed condition read as the proposition it decides (R124). -/
theorem State.next_skipIf_of_iff {s : State} {taken : Bool} {p : Prop} [Decidable p] (h : taken = true ↔ p) :
    (.next (s.skipIf taken) : Host.Outcome State Fault Refusal) =
      .next { s with pc := if p then s.pc + 4 else s.pc + 2 } := by
  simp only [State.skipIf_eq, h]

/-- SKP skips on the state of the key Vx names (R210). -/
theorem exec_skp_of_key {s : State} {x : Reg} {k : Key} (h : (s.reg x).toNat = k.val) :
    exec (.skp x) s = .next (s.skipIf (s.keyDown k)) := by
  simp only [exec, execSkp, (keyIndex_eq_some _ _).2 h]

/-- SKNP skips on the opposite state of the key Vx names (R211). -/
theorem exec_sknp_of_key {s : State} {x : Reg} {k : Key} (h : (s.reg x).toNat = k.val) :
    exec (.sknp x) s = .next (s.skipIf (!s.keyDown k)) := by
  simp only [exec, execSknp, (keyIndex_eq_some _ _).2 h]

/-- Settles O25: each of the six is `State.skipIf` of a test that decides its condition. -/
theorem registerSkips : Obligations.RegisterSkips := by
  intro s x y kk
  refine ⟨State.next_skipIf_of_iff beq_iff_eq, State.next_skipIf_of_iff bne_iff_ne,
    State.next_skipIf_of_iff beq_iff_eq, State.next_skipIf_of_iff bne_iff_ne, fun k hk => ⟨?_, ?_⟩⟩
  · exact (exec_skp_of_key hk).trans (State.next_skipIf_of_iff Iff.rfl)
  · exact (exec_sknp_of_key hk).trans (State.next_skipIf_of_iff (iff_of_eq (Bool.not_eq_true' _)))

end Sys2Proof.Machine

/-! PROOFS. Family 42_alu.md: the shifts (O31), LD and ADD byte (O27), OR, AND and XOR (O28), ADD (O29), SUB and SUBN
(O30). -/

namespace Sys2Proof.Machine

/-! ### One register write, with and without a flag (R20, R141) -/

/-- One register write and the advance are all that an instruction without a flag does (R27). -/
theorem State.writesReg_setReg_advance (s : State) (x : Reg) (b : Byte) : WritesReg x b s (s.setReg x b).advance :=
  ⟨fun r => State.reg_setReg s x r b, rfl, rfl, fun _ => rfl⟩

/-- The same with a flag written last, its value given in any form (R141). -/
theorem State.writesRegThenFlag_advance (s : State) (x : Reg) (b : Byte) {f flag : Byte} (h : f = flag) :
    WritesRegThenFlag x b flag s (s.setRegThenFlag x b f).advance := by
  subst h
  exact ⟨fun r => State.reg_setRegThenFlag s x r b f, rfl, rfl, fun _ => rfl⟩

/-! ### The results (R143, R148, R149, R151) -/

/-- The sum is exact before it is narrowed (R16). -/
theorem toNat_sumByte (a b : Byte) : (sumByte a b).toNat = (a.toNat + b.toNat) % 256 := by
  rw [sumByte, BitVec.toNat_ofNat, Nat.mod_mod]

/-- The difference is the one of the integers, modulo 256 (R16). -/
theorem toNat_differenceByte (a b : Byte) :
    ((differenceByte a b).toNat : Int) = ((a.toNat : Int) - (b.toNat : Int)) % 256 := by
  have hb := b.isLt
  rw [differenceByte, BitVec.toNat_ofNat]
  omega

theorem toNat_shiftRight_one (b : Byte) : (b >>> 1).toNat = b.toNat / 2 := by
  rw [BitVec.toNat_ushiftRight, Nat.shiftRight_eq_div_pow, Nat.pow_one]

theorem toNat_shiftLeft_one (b : Byte) : (b <<< 1).toNat = b.toNat * 2 % 256 := by
  rw [BitVec.toNat_shiftLeft, Nat.shiftLeft_eq, Nat.pow_one]

/-! ### The flags (R35, R148 to R155) -/

/-- A flag computed from a test, with the test read as the proposition it decides (R35). -/
theorem flagOf_of_iff {set : Bool} {p : Prop} [Decidable p] (h : set = true ↔ p) :
    flagOf set = if p then 1 else 0 := by
  simp only [flagOf, h]

theorem carryFlag_eq (a b : Byte) : carryFlag a b = if a.toNat + b.toNat > 255 then 1 else 0 :=
  flagOf_of_iff decide_eq_true_iff

theorem greaterFlag_eq (a b : Byte) : greaterFlag a b = if a.toNat > b.toNat then 1 else 0 :=
  flagOf_of_iff decide_eq_true_iff

/-- Bit 0 is the bit that a division by two drops. -/
theorem shrFlag_eq (src : Byte) : shrFlag src = if src.toNat % 2 = 1 then 1 else 0 := by
  refine flagOf_of_iff ?_
  rw [BitVec.getLsbD, Nat.testBit_zero, decide_eq_true_iff]

/-- Bit 7 is the top bit of a byte. -/
theorem shlFlag_eq (src : Byte) : shlFlag src = if src.toNat ≥ 128 then 1 else 0 := by
  refine flagOf_of_iff ?_
  change src.msb = true ↔ _
  rw [BitVec.msb_eq_decide, decide_eq_true_iff]

/-! ### The shifts (R150, R152 to R155) -/

/-- A value that is Vx under InPlace and Vy under FromVy is the source of the shifts (R153, R154). -/
theorem shiftSource_eq {s : State} {x y : Reg} {src : Byte} (inPlace : s.cfg.shiftQuirk = .inPlace → src = s.reg x)
    (fromVy : s.cfg.shiftQuirk = .fromVy → src = s.reg y) : shiftSource x y s = src := by
  unfold shiftSource
  split
  · exact (inPlace (by assumption)).symm
  · exact (fromVy (by assumption)).symm

/-- Settles O31: the setting fixes the source; the flag comes from the source as read, and is written last. -/
theorem shiftsCaptureTheBitShiftedOut : Obligations.ShiftsCaptureTheBitShiftedOut := by
  intro s x y src inPlace fromVy
  obtain rfl := shiftSource_eq inPlace fromVy
  exact ⟨⟨_, _, rfl, toNat_shiftRight_one _, s.writesRegThenFlag_advance x _ (shrFlag_eq _)⟩,
    ⟨_, _, rfl, toNat_shiftLeft_one _, s.writesRegThenFlag_advance x _ (shlFlag_eq _)⟩⟩

/-! ### Loads, bitwise operations, sums and differences (R142 to R149, R151) -/

/-- Settles O27: each is one register write. -/
theorem loadAndImmediateAdd : Obligations.LoadAndImmediateAdd := by
  intro s x y kk
  exact ⟨⟨_, rfl, s.writesReg_setReg_advance x kk⟩,
    ⟨_, _, rfl, toNat_sumByte _ kk, s.writesReg_setReg_advance x _⟩,
    ⟨_, rfl, s.writesReg_setReg_advance x _⟩⟩

/-- Settles O28: each is one register write, of a value that the library gives bit by bit. -/
theorem bitwiseOperations : Obligations.BitwiseOperations := by
  intro s x y
  exact ⟨⟨_, _, rfl, s.writesReg_setReg_advance x _, fun _ => BitVec.getLsbD_or⟩,
    ⟨_, _, rfl, s.writesReg_setReg_advance x _, fun _ => BitVec.getLsbD_and⟩,
    ⟨_, _, rfl, s.writesReg_setReg_advance x _, fun _ => BitVec.getLsbD_xor⟩⟩

/-- Settles O29: the sum and the carry are of the operands as read, and the flag is written last. -/
theorem addSetsCarry : Obligations.AddSetsCarry := by
  intro s x y
  exact ⟨_, _, rfl, toNat_sumByte _ _, s.writesRegThenFlag_advance x _ (carryFlag_eq _ _)⟩

/-- Settles O30: SUBN is SUB with the operands' parts exchanged. -/
theorem subtractSetsStrictlyGreater : Obligations.SubtractSetsStrictlyGreater := by
  intro s x y
  exact ⟨⟨_, _, rfl, toNat_differenceByte _ _, s.writesRegThenFlag_advance x _ (greaterFlag_eq _ _)⟩,
    ⟨_, _, rfl, toNat_differenceByte _ _, s.writesRegThenFlag_advance x _ (greaterFlag_eq _ _)⟩⟩

end Sys2Proof.Machine

/-! PROOFS. Family 43_address_random.md: LD I, ADD I and LD F (O33). -/

namespace Sys2Proof.Machine

/-! ### The addresses and the flag of ADD I and LD F (R35, R171, R172) -/

/-- The sum is exact before it is narrowed to 16 bits (R171). -/
theorem toNat_sumAddress (i : Word) (b : Byte) : (sumAddress i b).toNat = (i.toNat + b.toNat) % 65536 :=
  (BitVec.toNat_ofNat _ 16).trans (Nat.mod_mod _ _)

/-- The flag is a test of the exact sum, not of the narrowed one (R171). -/
theorem addressFlag_eq (i : Word) (b : Byte) : addressFlag i b = if i.toNat + b.toNat > 0xFFF then 1 else 0 :=
  flagOf_of_iff decide_eq_true_iff

/-- The low nibble is the byte modulo 16, and five times a nibble fits an address (R172). -/
theorem toNat_glyphAddress (b : Byte) : (glyphAddress b).toNat = 5 * (b.toNat % 16) := by
  have hnibble : (b &&& 0x0F).toNat = b.toNat % 16 := Nat.and_two_pow_sub_one_eq_mod b.toNat 4
  rw [glyphAddress, glyphBytes, BitVec.toNat_ofNat, hnibble]
  omega

/-! ### LD I, ADD I and LD F (R170 to R172) -/

/-- Settles O33: each writes one computed address to I; ADD I also writes VF, from I and Vx as read. -/
theorem addressRegisterOperations : Obligations.AddressRegisterOperations := by
  intro s x nnn
  refine ⟨⟨_, rfl, zextAddr_toNat nnn, rfl, fun _ => rfl⟩,
    ⟨_, rfl, toNat_sumAddress s.i (s.reg x), fun r => ?_, rfl, fun _ => rfl⟩,
    ⟨_, rfl, toNat_glyphAddress (s.reg x), rfl, fun _ => rfl⟩⟩
  rw [← addressFlag_eq s.i (s.reg x)]
  exact State.reg_setReg _ vF r _

end Sys2Proof.Machine

/-! PROOFS. Family 44_display.md: DRW over the whole framebuffer (O37), two equal draws (O40, O41), CLS (O36), DRW
out of range (O38) and DRW of no rows (O39). -/

namespace Sys2Proof.Machine

/-! ### What DRW draws (R191 to R194) -/

@[simp] theorem State.length_bytes (s : State) (a n : Nat) : (s.bytes a n).length = n := Memory.length_readBytes ..

theorem State.getElem_bytes (s : State) (a n r : Nat) (h : r < (s.bytes a n).length) :
    (s.bytes a n)[r] = s.byte (a + r) :=
  Memory.getElem_readBytes s.cfg s.mem a n r h

/-- The rows that DRW reads at I cover the pixels that `SpriteCovers` names. -/
theorem rowsCover_bytes_iff (s : State) (x y : Reg) (n : Nat) (px : Fin 64) (py : Fin 32) :
    RowsCover (s.bytes s.i.toNat n) (s.reg x).toNat (s.reg y).toNat px py ↔ SpriteCovers s x y n px py := by
  simp only [RowsCover, ColumnsCover, SpriteCovers, State.length_bytes, State.getElem_bytes, spriteBit, wrapX, wrapY,
    Fin.ext_iff, exists_prop, ← exists_and_left]

/-- A sprite has at most 15 rows, so no two of them wrap onto each other (R194). -/
theorem State.length_spriteRows_le (s : State) (a : Nat) (n : Fin 16) : (s.bytes a n.val).length ≤ 32 := by
  rw [State.length_bytes]
  omega

/-- DRW inverts exactly the covered pixels. -/
theorem pixel_drawn (s : State) (x y : Reg) (n : Fin 16) (px : Fin 64) (py : Fin 32) :
    (SpriteCovers s x y n.val px py →
      Framebuffer.pixel (drawn x y n.val s).1 px py = !Framebuffer.pixel s.fb px py) ∧
    (¬ SpriteCovers s x y n.val px py →
      Framebuffer.pixel (drawn x y n.val s).1 px py = Framebuffer.pixel s.fb px py) := by
  rw [← rowsCover_bytes_iff]
  exact pixel_drawSprite _ (s.fb, false) _ _ (s.length_spriteRows_le _ n) px py

/-- DRW collides exactly where a covered pixel was 1 (R193). -/
theorem collision_drawn (s : State) (x y : Reg) (n : Fin 16) :
    (drawn x y n.val s).2 = true ↔
      ∃ px py, SpriteCovers s x y n.val px py ∧ Framebuffer.pixel s.fb px py = true := by
  simp only [← rowsCover_bytes_iff]
  exact (collision_drawSprite _ (s.fb, false) _ _ (s.length_spriteRows_le _ n)).trans (or_iff_right Bool.false_ne_true)

/-- A pixel goes from 1 to 0 exactly where it was 1 and is covered. -/
theorem pixel_erased_iff (s : State) (x y : Reg) (n : Fin 16) (px : Fin 64) (py : Fin 32) :
    (Framebuffer.pixel s.fb px py = true ∧ Framebuffer.pixel (drawn x y n.val s).1 px py = false) ↔
      (SpriteCovers s x y n.val px py ∧ Framebuffer.pixel s.fb px py = true) := by
  obtain ⟨inverted, kept⟩ := pixel_drawn s x y n px py
  by_cases hc : SpriteCovers s x y n.val px py
  · simp [inverted hc, hc]
  · simp [kept hc, hc]

/-! ### DRW in and out of range (R191, R195, R196) -/

theorem exec_drw_of_inRange {s : State} {n : Fin 16} (h : InRange s.i.toNat n.val) (x y : Reg) :
    exec (.drw x y n) s = .next
      ({ s with fb := (drawn x y n.val s).1, dirty := true }.setReg vF (flagOf (drawn x y n.val s).2)).advance := by
  simp only [exec, execDrw, if_pos h]

theorem exec_drw_of_not_inRange {s : State} {n : Fin 16} (h : ¬ InRange s.i.toNat n.val) (x y : Reg) :
    exec (.drw x y n) s = .next (s.halt .outOfRange (some (encode (.drw x y n)))) := by
  simp only [exec, execDrw, if_neg h, raiseIn_eq_next]

theorem flagOf_eq_one_iff (set : Bool) : flagOf set = 1 ↔ set = true := by
  cases set <;> decide

theorem flagOf_eq_zero_iff (set : Bool) : flagOf set = 0 ↔ set = false := by
  cases set <;> decide

/-- The framebuffer and the flag that DRW in range leaves (R191, R193). -/
theorem fb_and_flag_of_exec_drw {s t : State} {x y : Reg} {n : Fin 16} (h : InRange s.i.toNat n.val)
    (ht : exec (.drw x y n) s = .next t) :
    t.fb = (drawn x y n.val s).1 ∧ t.reg vF = flagOf (drawn x y n.val s).2 := by
  cases (exec_drw_of_inRange h x y).symm.trans ht
  exact ⟨rfl, by simp⟩

/-- Settles O37: the drawing loops in closed form; the collision is a covered pixel that was 1, which is a pixel that
goes from 1 to 0. -/
theorem drwXorsTheSprite : Obligations.DrwXorsTheSprite := by
  intro s x y n hin
  have erased : (drawn x y n.val s).2 = true ↔ ∃ px py,
      Framebuffer.pixel s.fb px py = true ∧ Framebuffer.pixel (drawn x y n.val s).1 px py = false := by
    simp only [pixel_erased_iff, collision_drawn]
  obtain ⟨-, hflag⟩ := fb_and_flag_of_exec_drw hin (exec_drw_of_inRange hin x y)
  refine ⟨_, exec_drw_of_inRange hin x y, fun px py => (pixel_drawn s x y n px py).1,
    fun px py => (pixel_drawn s x y n px py).2, fun h => ?_, fun h => ?_, fun r hr => ?_, rfl, fun _ => rfl⟩
  · rw [hflag, flagOf_eq_one_iff]
    exact erased.2 h
  · rw [hflag, flagOf_eq_zero_iff]
    exact Bool.eq_false_iff.2 fun hcol => h (erased.1 hcol)
  · exact (State.reg_setReg _ vF r _).trans (if_neg hr)

/-! ### Two equal draws (R197) -/

/-- The sprite of a draw depends on I, on Vx and Vy, and on the bytes of its rows alone. -/
theorem spriteCovers_congr {s u : State} {x y : Reg} {n : Nat} (hi : u.i = s.i) (hx : u.reg x = s.reg x)
    (hy : u.reg y = s.reg y) (hrows : ∀ r, r < n → u.byte (s.i.toNat + r) = s.byte (s.i.toNat + r)) (px : Fin 64)
    (py : Fin 32) : SpriteCovers u x y n px py ↔ SpriteCovers s x y n px py := by
  unfold SpriteCovers
  rw [hi, hx, hy]
  refine exists_congr fun r => exists_congr fun c => and_congr_right fun hr => ?_
  rw [hrows r hr]

section SecondDraw

variable {s u : State} {x y : Reg} {n : Fin 16} (hfb : u.fb = (drawn x y n.val s).1)
  (hcovers : ∀ px py, SpriteCovers u x y n.val px py ↔ SpriteCovers s x y n.val px py)
include hfb hcovers

/-- The second of two equal draws inverts the same pixels again. -/
theorem drawn_twice_fb : (drawn x y n.val u).1 = s.fb := by
  refine Framebuffer.ext_pixel _ _ fun px py => ?_
  obtain ⟨first_inverts, first_keeps⟩ := pixel_drawn s x y n px py
  obtain ⟨second_inverts, second_keeps⟩ := pixel_drawn u x y n px py
  by_cases hc : SpriteCovers s x y n.val px py
  · rw [second_inverts ((hcovers px py).2 hc), hfb, first_inverts hc, Bool.not_not]
  · rw [second_keeps (mt (hcovers px py).1 hc), hfb, first_keeps hc]

/-- The second of two equal draws collides exactly where the first one set a pixel. -/
theorem collision_drawn_twice :
    (drawn x y n.val u).2 = true ↔
      ∃ px py, SpriteCovers s x y n.val px py ∧ Framebuffer.pixel s.fb px py = false := by
  rw [collision_drawn]
  refine exists_congr fun px => exists_congr fun py => ?_
  rw [hcovers]
  refine and_congr_right fun hc => ?_
  rw [hfb, (pixel_drawn s x y n px py).1 hc, Bool.not_eq_true']

end SecondDraw

/-- Settles O40: both draws cover the same pixels, so the second inverts them back, and collides where they were 0. -/
theorem drawingTwiceRestoresTheFramebuffer : Obligations.DrawingTwiceRestoresTheFramebuffer := by
  intro s t u w x y n hin ht hfb hi hx hy hrows hw
  have hcovers := spriteCovers_congr hi hx hy hrows
  obtain ⟨htfb, htflag⟩ := fb_and_flag_of_exec_drw hin ht
  obtain ⟨hwfb, hwflag⟩ := fb_and_flag_of_exec_drw (by rwa [hi]) hw
  have hfirst : u.fb = (drawn x y n.val s).1 := hfb.trans htfb
  refine ⟨hwfb.trans (drawn_twice_fb hfirst hcovers), fun hclear => ?_, ?_⟩
  · rw [htflag, flagOf_eq_zero_iff, Bool.eq_false_iff, Ne, collision_drawn]
    rintro ⟨px, py, hc, hset⟩
    exact nomatch (hclear px py hc).symm.trans hset
  · rw [hwflag, flagOf_eq_one_iff]
    exact collision_drawn_twice hfirst hcovers

/-- Refutes O41 (log 17): the sprite is the top row of glyph 0 at (0, 0), and the framebuffer the one that a draw of it
from reset leaves, where every covered pixel is 1. The pair of draws erases the row and sets it again, and setting it
gives VF = 0. -/
theorem not_secondDrawAlwaysCollides : ¬ Obligations.SecondDrawAlwaysCollides := by
  intro h
  have collides := h { State.reset with fb := (drawn 0 0 1 State.reset).1 } _ _ _ 0 0 1 (by decide) rfl rfl rfl rfl rfl
    (fun _ _ => rfl) rfl ⟨0, 0, 0, 0, by decide⟩
  exact absurd collides (by decide)

/-! ### CLS, and DRW at its limits (R190, R195, R196) -/

/-- A cycle of a block with a next instruction executes it (R270). -/
theorem cycle_of_nextInstr? {s : State} {i : Instr} (h : s.nextInstr? = some i) (rnd : Option Byte) :
    cycle rnd s = exec i (s.beginCycle rnd) := by
  have hrun := State.run_eq_running_of_nextInstr? h
  simp only [State.nextInstr?, hrun] at h
  rcases cycle_running_cases rnd s hrun with ⟨k, hf, -⟩ | ⟨op, hf, hd, -⟩ | ⟨op, j, hf, hd, hc⟩
  · simp only [hf, reduceCtorEq] at h
  · simp only [hf, hd, reduceCtorEq] at h
  · simp only [hf, hd, Option.some.injEq] at h
    exact h ▸ hc

/-- Settles O36: the cycle's result is that of a running block that executed CLS. -/
theorem clsClearsTheFramebuffer : Obligations.ClsClearsTheFramebuffer := by
  intro s
  refine ⟨⟨_, rfl, Framebuffer.pixel_clear, rfl, fun _ => rfl⟩, fun rnd hrun hnext => ?_⟩
  have hcycle : cycle rnd s = .next { s.beginCycle rnd with fb := Framebuffer.clear, dirty := true }.advance :=
    cycle_of_nextInstr? hnext rnd
  simp only [cycleResult, hcycle, hnext, State.advance_run, State.beginCycle_run, hrun]
  rfl

/-- Settles O38: a row above 0xFFF fails the range check that DRW begins with. -/
theorem drwOutOfRangeRaises : Obligations.DrwOutOfRangeRaises := by
  intro s x y n hpos habove
  exact ⟨_, exec_drw_of_not_inRange (by unfold InRange; omega) x y, rfl⟩

/-- Settles O39: no rows are in range of every I, and drawing none leaves the framebuffer and the collision as they
begin. -/
theorem drwOfNoRowsDrawsNothing : Obligations.DrwOfNoRowsDrawsNothing := by
  intro s x y
  exact ⟨_, exec_drw_of_inRange (.inl rfl) x y, rfl, fun r => State.reg_setReg _ vF r _, rfl, fun _ => rfl⟩

end Sys2Proof.Machine

/-! PROOFS. Family 45_keypad.md: key events (O44), LD Vx, K (O43), SKP and SKNP (O26), and a cycle outside `Running`
(O11). -/

namespace Sys2Proof.Machine

/-! ### Key events (R213, R214) -/

/-- Setting a key's flag leaves the other flags alone (R42, R214). -/
theorem State.getElem_key_setKey (s : State) (k j : Key) (pressed : Bool) :
    (s.setKey k pressed).key[j.val] = if j = k then pressed else s.key[j.val] := by
  simp only [State.setKey_key, Vector.getElem_set, Fin.ext_iff, eq_comm]

/-- A release during the wait completes LD Vx, K (R213). -/
theorem transact_keyEvent_of_release {s : State} {x : Reg} (hwait : s.run = .waitingForKey x) (k : Key) :
    transact (.keyEvent k false) s = .next (resumeWithKey x k s) := by
  simp only [transact, keyEvent, hwait]

/-- Every other key event sets its flag alone (R214). -/
theorem transact_keyEvent_of_not_release {s : State} {pressed : Bool}
    (h : ∀ x, s.run = .waitingForKey x → pressed = true) (k : Key) :
    transact (.keyEvent k pressed) s = .next (s.setKey k pressed) := by
  rcases keyEvent_cases k pressed s with ⟨x, hwait, hrelease, -⟩ | ⟨-, he⟩
  · exact nomatch (h x hwait).symm.trans hrelease
  · exact congrArg Host.Outcome.next he

/-- The completed LD Vx, K leaves the key's index in Vx, zero-extended (R213). -/
theorem toNat_reg_resumeWithKey (x r : Reg) (k : Key) (s : State) :
    ((resumeWithKey x k s).reg r).toNat = if r = x then k.val else (s.reg r).toNat := by
  have hreg : (resumeWithKey x k s).reg r = if r = x then BitVec.ofNat 8 k.val else s.reg r := State.reg_setReg _ x r _
  have hindex : (BitVec.ofNat 8 k.val).toNat = k.val := Nat.mod_eq_of_lt (by omega)
  rw [hreg, apply_ite BitVec.toNat, hindex]

/-- Settles O44: a release during the wait is `resumeWithKey`, every other key event `setKey`. -/
theorem keyEvents : Obligations.KeyEvents := by
  intro s k pressed
  refine ⟨fun x hwait hrelease => ?_, fun hother => ?_⟩
  · subst hrelease
    exact ⟨_, transact_keyEvent_of_release hwait k, rfl, rfl, fun r => toNat_reg_resumeWithKey x r k s,
      fun j => s.getElem_key_setKey k j false, rfl, fun _ => rfl⟩
  · exact ⟨_, transact_keyEvent_of_not_release hother k, fun j => s.getElem_key_setKey k j pressed, rfl,
      fun _ => rfl⟩

/-! ### LD Vx, K (R212) -/

/-- Settles O43: entering the wait writes `run` alone. -/
theorem ldKEntersTheWait : Obligations.LdKEntersTheWait :=
  fun _ _ => ⟨_, rfl, rfl, fun _ => rfl⟩

/-! ### SKP and SKNP (R210, R211, R216) -/

/-- The word of format X as its fixed part and the register field (R83, R86). -/
theorem wordXKK_eq_add_field (f : Nat) (x : Reg) (kk : Nat) :
    wordXKK f x kk = BitVec.ofNat 16 (f * 4096 + kk + x.val * 256) :=
  congrArg (BitVec.ofNat 16) (Nat.add_right_comm _ _ _)

/-- SKP raises BadKey with its own word when Vx names no key (R216). -/
theorem exec_skp_of_no_key {s : State} {x : Reg} (h : (s.reg x).toNat > 0xF) :
    exec (.skp x) s = .next (s.halt .badKey (some (encode (.skp x)))) := by
  simp only [exec, execSkp, (keyIndex_eq_none _).2 h, raiseIn_eq_next]

/-- SKNP raises BadKey with its own word when Vx names no key (R216). -/
theorem exec_sknp_of_no_key {s : State} {x : Reg} (h : (s.reg x).toNat > 0xF) :
    exec (.sknp x) s = .next (s.halt .badKey (some (encode (.sknp x)))) := by
  simp only [exec, execSknp, (keyIndex_eq_none _).2 h, raiseIn_eq_next]

/-- Settles O26: the skips are those of O25, and the BadKey record holds the instruction's own word. -/
theorem keySkipsOrBadKey : Obligations.KeySkipsOrBadKey := by
  intro s x
  obtain ⟨-, -, -, -, hskips⟩ := registerSkips s x x 0
  have skpWord : encode (.skp x) = BitVec.ofNat 16 (0xE09E + x.val * 256) := wordXKK_eq_add_field 0xE x 0x9E
  have sknpWord : encode (.sknp x) = BitVec.ofNat 16 (0xE0A1 + x.val * 256) := wordXKK_eq_add_field 0xE x 0xA1
  refine ⟨hskips, fun habove => ?_⟩
  rw [← skpWord, ← sknpWord]
  exact ⟨⟨_, exec_skp_of_no_key habove, rfl⟩, ⟨_, exec_sknp_of_no_key habove, rfl⟩⟩

/-! ### A cycle outside `Running` (R215, R266, R270) -/

/-- A block that waits or is halted executes nothing: the cycle closes the `load` window (log 4), asks for no redraw,
and reports the record the block holds. -/
theorem cycle_of_not_running {s : State} (h : s.run ≠ .running) (rnd : Option Byte) :
    cycle rnd s = .next { s with started := true } ∧ cycleResult rnd s = { redraw := false, error := s.run.error? } := by
  have hcycle : cycle rnd s = .next { s with started := true } := by
    cases hrun : s.run with
    | running => exact absurd hrun h
    | waitingForKey x => simp only [cycle, hrun]
    | halted e => simp only [cycle, hrun]
  have hnone : s.nextInstr? = none :=
    Option.eq_none_iff_forall_ne_some.2 fun _ hi => h (State.run_eq_running_of_nextInstr? hi)
  exact ⟨hcycle, by simp only [cycleResult, hcycle, hnone, Bool.and_false]⟩

/-- Settles O11: both run states are other than `Running`, and only a halted block holds a record. -/
theorem cycleOutsideRunningChangesNothing : Obligations.CycleOutsideRunningChangesNothing := by
  intro s rnd
  refine ⟨fun x hwait => ?_, fun e hhalted => ?_⟩
  · simpa only [hwait, RunState.error?] using cycle_of_not_running (s := s) (by simp [hwait]) rnd
  · simpa only [hhalted, RunState.error?] using cycle_of_not_running (s := s) (by simp [hhalted]) rnd

end Sys2Proof.Machine

/-! PROOFS. Family 46_timers.md: the timer instructions (O45). -/

namespace Sys2Proof.Machine

/-- LD DT, Vx writes DT and PC alone (R231). -/
theorem exec_ldDt (x : Reg) (s : State) : exec (.ldDt x) s = .next { s with dt := s.reg x, pc := s.pc + 2 } := rfl

/-- LD ST, Vx writes ST and PC alone (R232). -/
theorem exec_ldSt (x : Reg) (s : State) : exec (.ldSt x) s = .next { s with st := s.reg x, pc := s.pc + 2 } := rfl

/-- Settles O45: the read of DT is one register write, and each write of a timer is one field beside PC. -/
theorem timerAccess : Obligations.TimerAccess := by
  intro s x
  refine ⟨?read, ?writeDt, ?writeSt⟩
  case read => exact ⟨_, rfl, s.writesReg_setReg_advance x s.dt⟩
  case writeDt => exact ⟨_, exec_ldDt x s, rfl, fun _ => rfl⟩
  case writeSt => exact ⟨_, exec_ldSt x s, rfl, fun _ => rfl⟩

end Sys2Proof.Machine

/-! PROOFS. Family 47_memory_transfer.md: Fx33 (O48), Fx55 (O49) and Fx65 (O50). -/

namespace Sys2Proof.Machine

/-! ### A store inside the 4096 bytes (R64, R65) -/

/-- A store in range: byte j of the list stands at `a + j`, and every other byte is as before. -/
theorem State.byte_store_of_inRange {s : State} {a : Nat} {bs : List Byte} (hwf : Memory.wf s.cfg s.mem = true)
    (ha : InRange a bs.length) :
    (∀ j, (hj : j < bs.length) → (s.store a bs).byte (a + j) = bs[j]) ∧
      SameMemoryOutside a bs.length s (s.store a bs) := by
  have hbyte (d : Nat) := State.byte_store s a d bs hwf (ha.imp List.length_eq_zero_iff.1 fun h => by omega)
  refine ⟨fun j hj => ?_, fun d hd => ?_⟩
  · rw [hbyte, dif_pos (by omega)]
    simp only [Nat.add_sub_cancel_left]
  · rw [hbyte, dif_neg (by omega)]

/-! ### LD B, Vx (R240) -/

theorem exec_ldB_of_inRange {s : State} (h : InRange s.i.toNat 3) (x : Reg) :
    exec (.ldB x) s = .next (s.store s.i.toNat (decimalDigits (s.reg x))).advance := by
  simp only [exec, execLdB, if_pos h]

theorem exec_ldB_of_not_inRange {s : State} (h : ¬ InRange s.i.toNat 3) (x : Reg) :
    exec (.ldB x) s = .next (s.halt .outOfRange (some (encode (.ldB x)))) := by
  simp only [exec, execLdB, if_neg h, raiseIn_eq_next]

/-- The hundreds of a byte are at most 2, so each digit fits a byte. -/
theorem toNat_getElem_decimalDigits (b : Byte) :
    (decimalDigits b)[0].toNat = b.toNat / 100 ∧ (decimalDigits b)[1].toNat = b.toNat / 10 % 10 ∧
      (decimalDigits b)[2].toNat = b.toNat % 10 := by
  have hb := b.isLt
  simp only [decimalDigits, List.getElem_cons_zero, List.getElem_cons_succ, BitVec.toNat_ofNat]
  omega

/-- Settles O48: in range the three digits are stored at I, and out of range the check before the store fails. -/
theorem bcdStoresDecimalDigits : Obligations.BcdStoresDecimalDigits := by
  intro s x hwf
  refine ⟨fun hin => ?_, fun hout => ?_⟩
  · have hr : InRange s.i.toNat 3 := .inr (by omega)
    obtain ⟨stored, outside⟩ := State.byte_store_of_inRange (bs := decimalDigits (s.reg x)) hwf hr
    obtain ⟨hundreds, tens, ones⟩ := toNat_getElem_decimalDigits (s.reg x)
    exact ⟨_, exec_ldB_of_inRange hr x, (congrArg BitVec.toNat (stored 0 (by simp))).trans hundreds,
      (congrArg BitVec.toNat (stored 1 (by simp))).trans tens,
      (congrArg BitVec.toNat (stored 2 (by simp))).trans ones, outside, rfl⟩
  · have ownWord : encode (.ldB x) = BitVec.ofNat 16 (0xF033 + x.val * 256) := wordXKK_eq_add_field 0xF x 0x33
    rw [← ownWord]
    exact ⟨_, exec_ldB_of_not_inRange (by unfold InRange; omega) x, rfl⟩

/-! ### LD [I], Vx (R241) -/

theorem exec_ldStore_of_inRange {s : State} {x : Reg} (h : InRange s.i.toNat (x.val + 1)) :
    exec (.ldStore x) s = .next (s.store s.i.toNat (s.regsUpTo x)).advance := by
  simp only [exec, execLdStore, if_pos h]

theorem exec_ldStore_of_not_inRange {s : State} {x : Reg} (h : ¬ InRange s.i.toNat (x.val + 1)) :
    exec (.ldStore x) s = .next (s.halt .outOfRange (some (encode (.ldStore x)))) := by
  simp only [exec, execLdStore, if_neg h, raiseIn_eq_next]

/-- Settles O49: in range V0, …, Vx are stored at I, and out of range the check before the store fails. -/
theorem storeCopiesRegistersToMemory : Obligations.StoreCopiesRegistersToMemory := by
  intro s x hwf
  have hlen := State.length_regsUpTo s x
  refine ⟨fun hin => ?_, fun hout => ?_⟩
  · have hr : InRange s.i.toNat (x.val + 1) := .inr (by omega)
    obtain ⟨stored, outside⟩ := State.byte_store_of_inRange (bs := s.regsUpTo x) hwf (by rwa [hlen])
    rw [hlen] at outside
    refine ⟨_, exec_ldStore_of_inRange hr, fun r hle => ?_, outside, rfl⟩
    have hr : r.val < (s.regsUpTo x).length := by omega
    exact (stored r.val hr).trans (State.getElem_regsUpTo s x r.val hr)
  · have ownWord : encode (.ldStore x) = BitVec.ofNat 16 (0xF055 + x.val * 256) := wordXKK_eq_add_field 0xF x 0x55
    rw [← ownWord]
    exact ⟨_, exec_ldStore_of_not_inRange (by unfold InRange; omega), rfl⟩

/-! ### LD Vx, [I] (R242) -/

theorem exec_ldLoad_of_inRange {s : State} {x : Reg} (h : InRange s.i.toNat (x.val + 1)) :
    exec (.ldLoad x) s = .next { s with v := loadRegs s.v 0 (s.bytes s.i.toNat (x.val + 1)) }.advance := by
  simp only [exec, execLdLoad, if_pos h]

theorem exec_ldLoad_of_not_inRange {s : State} {x : Reg} (h : ¬ InRange s.i.toNat (x.val + 1)) :
    exec (.ldLoad x) s = .next (s.halt .outOfRange (some (encode (.ldLoad x)))) := by
  simp only [exec, execLdLoad, if_neg h, raiseIn_eq_next]

/-- V0, …, Vx take the bytes from `a` on, and the registers above keep their values (R242). -/
theorem State.getElem_loadRegs_bytes (s : State) (a : Nat) (x r : Reg) :
    (loadRegs s.v 0 (s.bytes a (x.val + 1)))[r.val] = if r.val ≤ x.val then s.byte (a + r.val) else s.reg r := by
  have hlen := State.length_bytes s a (x.val + 1)
  have hfit : 0 + (s.bytes a (x.val + 1)).length ≤ 16 := by omega
  rw [getElem_loadRegs s.v 0 _ hfit r.val r.isLt]
  by_cases hle : r.val ≤ x.val
  · rw [dif_pos (by omega), if_pos hle, State.getElem_bytes, Nat.sub_zero]
  · rw [dif_neg (by omega), if_neg hle]
    rfl

/-- Settles O50: in range V0, …, Vx are loaded from I, and out of range the check before the load fails. -/
theorem loadCopiesMemoryToRegisters : Obligations.LoadCopiesMemoryToRegisters := by
  intro s x
  refine ⟨fun hin => ?_, fun hout => ?_⟩
  · exact ⟨_, exec_ldLoad_of_inRange (.inr (by omega)), s.getElem_loadRegs_bytes s.i.toNat x, rfl, fun _ => rfl⟩
  · have ownWord : encode (.ldLoad x) = BitVec.ofNat 16 (0xF065 + x.val * 256) := wordXKK_eq_add_field 0xF x 0x65
    rw [← ownWord]
    exact ⟨_, exec_ldLoad_of_not_inRange (by unfold InRange; omega), rfl⟩

end Sys2Proof.Machine

/-! PROOFS. Family 60_exceptions.md: what every instruction answers (O15), the run state after a cycle (O16), the
precision of errors (O13), and the way out of `Halted` (O12). -/

namespace Sys2Proof.Machine

/-! ### What every instruction answers (R262, R267, R280) -/

/-- Another schedule (R280). -/
def State.withPending (s : State) (ts : List Transaction) : State := { s with pending := ts }

/-- In state `s` the operation answers a next state, the same one whatever is pending, and passes the schedule on. -/
def AnswersUnderAnySchedule (f : State → Host.Outcome State Fault Refusal) (s : State) : Prop :=
  ∃ t : State, f s = .next t ∧ ∀ ts, f (s.withPending ts) = .next (t.withPending ts)

/-- Every instruction answers so: in each case of its meaning it gives a next state, and no case depends on the
schedule. -/
theorem exec_answersUnderAnySchedule (ins : Instr) (s : State) : AnswersUnderAnySchedule (exec ins) s := by
  cases ins with
  | sys nnn =>
    cases hmode : s.cfg.sysMode with
    | fault =>
      exact ⟨_, exec_sys_of_fault nnn hmode, fun ts => exec_sys_of_fault (s := s.withPending ts) nnn hmode⟩
    | ignore =>
      exact ⟨_, exec_sys_of_ignore nnn hmode, fun ts => exec_sys_of_ignore (s := s.withPending ts) nnn hmode⟩
  | call nnn =>
    rcases Nat.lt_or_eq_of_le (Nat.le_of_lt_succ s.sp.isLt) with hsp | hsp
    · exact ⟨_, exec_call_of_lt nnn hsp, fun ts => exec_call_of_lt (s := s.withPending ts) nnn hsp⟩
    · exact ⟨_, exec_call_of_full nnn hsp, fun ts => exec_call_of_full (s := s.withPending ts) nnn hsp⟩
  | ret =>
    rcases Nat.eq_zero_or_pos s.sp.val with hsp | hsp
    · exact ⟨_, exec_ret_of_empty hsp, fun ts => exec_ret_of_empty (s := s.withPending ts) hsp⟩
    · exact ⟨_, exec_ret_of_pos hsp, fun ts => exec_ret_of_pos (s := s.withPending ts) hsp⟩
  | skp x =>
    rcases Nat.lt_or_ge (s.reg x).toNat 16 with hkey | hkey
    · exact ⟨_, exec_skp_of_key (k := ⟨_, hkey⟩) rfl, fun ts => exec_skp_of_key (s := s.withPending ts) rfl⟩
    · exact ⟨_, exec_skp_of_no_key hkey, fun ts => exec_skp_of_no_key (s := s.withPending ts) hkey⟩
  | sknp x =>
    rcases Nat.lt_or_ge (s.reg x).toNat 16 with hkey | hkey
    · exact ⟨_, exec_sknp_of_key (k := ⟨_, hkey⟩) rfl, fun ts => exec_sknp_of_key (s := s.withPending ts) rfl⟩
    · exact ⟨_, exec_sknp_of_no_key hkey, fun ts => exec_sknp_of_no_key (s := s.withPending ts) hkey⟩
  | drw x y n =>
    by_cases hr : InRange s.i.toNat n.val
    · exact ⟨_, exec_drw_of_inRange hr x y, fun ts => exec_drw_of_inRange (s := s.withPending ts) hr x y⟩
    · exact ⟨_, exec_drw_of_not_inRange hr x y, fun ts => exec_drw_of_not_inRange (s := s.withPending ts) hr x y⟩
  | ldB x =>
    by_cases hr : InRange s.i.toNat 3
    · exact ⟨_, exec_ldB_of_inRange hr x, fun ts => exec_ldB_of_inRange (s := s.withPending ts) hr x⟩
    · exact ⟨_, exec_ldB_of_not_inRange hr x, fun ts => exec_ldB_of_not_inRange (s := s.withPending ts) hr x⟩
  | ldStore x =>
    by_cases hr : InRange s.i.toNat (x.val + 1)
    · exact ⟨_, exec_ldStore_of_inRange hr, fun ts => exec_ldStore_of_inRange (s := s.withPending ts) hr⟩
    · exact ⟨_, exec_ldStore_of_not_inRange hr, fun ts => exec_ldStore_of_not_inRange (s := s.withPending ts) hr⟩
  | ldLoad x =>
    by_cases hr : InRange s.i.toNat (x.val + 1)
    · exact ⟨_, exec_ldLoad_of_inRange hr, fun ts => exec_ldLoad_of_inRange (s := s.withPending ts) hr⟩
    · exact ⟨_, exec_ldLoad_of_not_inRange hr, fun ts => exec_ldLoad_of_not_inRange (s := s.withPending ts) hr⟩
  | _ => exact ⟨_, rfl, fun _ => rfl⟩

/-- Settles O15: an error is a next state too. -/
theorem everyInstructionAnswersNext : Obligations.EveryInstructionAnswersNext := fun i s =>
  have ⟨t, ht, _⟩ := exec_answersUnderAnySchedule i s
  ⟨t, ht⟩

/-! ### A cycle of a running block (R262, R270, R271) -/

theorem State.nextInstr?_of_decode {s : State} (hrun : s.run = .running) {op : Word} (hf : fetch s = .ok op) {i : Instr}
    (hd : decode op = some i) : s.nextInstr? = some i := by
  simp only [State.nextInstr?, hrun, hf, hd]

/-- `cycle_running_cases` by its result: the cycle halts, for want of an instruction, or executes the next one. -/
theorem cycle_halts_or_executes (rnd : Option Byte) {s : State} (hrun : s.run = .running) :
    (∃ k op, cycle rnd s = .next ((s.beginCycle rnd).halt k op)) ∨
    (∃ i, s.nextInstr? = some i ∧ cycle rnd s = exec i (s.beginCycle rnd)) := by
  rcases cycle_running_cases rnd s hrun with ⟨k, -, hc⟩ | ⟨op, -, -, hc⟩ | ⟨op, i, hf, hd, hc⟩
  · exact .inl ⟨k, none, hc⟩
  · exact .inl ⟨_, some op, hc⟩
  · exact .inr ⟨i, State.nextInstr?_of_decode hrun hf hd, hc⟩

/-- Settles O16: a cycle that raised nothing executed an instruction, which kept the run state or entered the wait. -/
theorem runStateAfterACycle : Obligations.RunStateAfterACycle := by
  intro s t rnd hrun h ht
  rcases cycle_halts_or_executes rnd hrun with ⟨k, op, hc⟩ | ⟨i, hi, hc⟩
  · cases hc.symm.trans h
    exact nomatch ht
  · have hexec := hc.symm.trans h
    refine ⟨i, hi, hexec, ?_⟩
    rcases exec_next_cases i _ t hexec with ⟨k, rfl⟩ | ⟨hsame, hne⟩ | ⟨x, rfl, rfl⟩
    · exact nomatch ht
    · exact ⟨fun _ => hsame.trans hrun, fun x hx => absurd hx (hne x)⟩
    · exact ⟨fun hne => absurd rfl (hne x), fun y hy => congrArg RunState.waitingForKey (Instr.ldK.inj hy)⟩

/-- A cycle that halts a running block raised one error and did nothing else (R262). -/
theorem cycle_raises_of_halted {s t : State} {rnd : Option Byte} {e : ErrorRecord} (hrun : s.run = .running)
    (h : cycle rnd s = .next t) (he : t.run = .halted e) : ∃ k op, t = (s.beginCycle rnd).halt k op := by
  rcases cycle_halts_or_executes rnd hrun with ⟨k, op, hc⟩ | ⟨i, -, hc⟩
  · exact ⟨k, op, (Host.Outcome.next.inj (hc.symm.trans h)).symm⟩
  · rcases exec_next_cases i _ t (hc.symm.trans h) with ⟨k, ht⟩ | ⟨hsame, -⟩ | ⟨x, -, rfl⟩
    · exact ⟨k, _, ht⟩
    · exact nomatch (he.symm.trans hsame).trans hrun
    · exact nomatch he

/-! ### A rejected image (R262, R266, R306) -/

theorem rejectImage_of_running {s : State} (hrun : s.run = .running) :
    rejectImage s = { s with run := .halted { kind := .programTooLarge, pc := 0x200, opcode := none } } := by
  simp only [rejectImage, hrun]

theorem rejectImage_of_halted {s : State} {e : ErrorRecord} (hrun : s.run = .halted e) : rejectImage s = s := by
  simp only [rejectImage, hrun]

/-- Settles O13: the cycle is one `raise`, and of the two things a `load` does the store leaves the block running. -/
theorem errorsArePrecise : Obligations.ErrorsArePrecise := by
  refine ⟨fun s t rnd e hrun h he => ?_, fun s t image e hrun h he => ?_⟩
  · obtain ⟨k, op, rfl⟩ := cycle_raises_of_halted hrun h he
    cases he
    refine ⟨rfl, rfl, ?_⟩
    simp only [cycleResult, h]
    rfl
  · obtain ⟨-, ⟨-, rfl⟩ | ⟨-, rfl⟩⟩ := loadImage_next_cases image s t h
    · rw [rejectImage_of_running hrun] at he ⊢
      cases he
      rfl
    · exact nomatch hrun.symm.trans he

/-- Settles O12: a halted block rejects an image without a new record and executes nothing in a cycle, and the other
transactions touch neither `run` nor the core (O56). -/
theorem haltedIsLeftOnlyByReset : Obligations.HaltedIsLeftOnlyByReset := by
  refine ⟨fun s t tr e hrun hreset h => ?_, fun s => ⟨_, rfl, rfl⟩⟩
  cases tr with
  | reset => exact absurd rfl hreset
  | load image =>
    obtain ⟨-, ⟨-, rfl⟩ | ⟨-, rfl⟩⟩ := loadImage_next_cases image s t h
    · rw [rejectImage_of_halted hrun]
      exact ⟨hrun, rfl, rfl, rfl, rfl, rfl, rfl⟩
    · exact ⟨hrun, rfl, rfl, rfl, rfl, rfl, rfl⟩
  | cycle rnd =>
    obtain ⟨hcycle, -⟩ := cycle_of_not_running (s := s) (by simp [hrun]) (some rnd)
    cases hcycle.symm.trans h
    exact ⟨hrun, rfl, rfl, rfl, rfl, rfl, rfl⟩
  | tick | keyEvent | fbRead | ackRedraw =>
    obtain ⟨v, i, pc, stack, sp, fb, run, -⟩ := hostNeverMutatesTheCore.1 s t _ h (fun _ => nofun) hreset
      (fun _ => nofun) fun x k hwait => nomatch hrun.symm.trans hwait
    exact ⟨run.trans hrun, v, i, pc, stack, sp, fb⟩

end Sys2Proof.Machine

/-! PROOFS. Family 70_reset_and_hazards.md: the delay timer over a schedule (O47), `load` (O55), the schedule that no
transaction reads (O60), one tick (O46), and `reset` (O54). -/

namespace Sys2Proof.Machine

/-! ### Ticks (R276, R277, R280, R282) -/

/-- One tick is a subtraction that stops at 0. -/
theorem toNat_countDown (t : Byte) : (countDown t).toNat = t.toNat - 1 := by
  unfold countDown
  split
  · exact BitVec.toNat_sub_of_le (BitVec.le_def.2 (by assumption))
  · omega

/-- Settles O46: each timer is counted down on its own. -/
theorem tickCountsDown : Obligations.TickCountsDown :=
  fun s => ⟨_, rfl, toNat_countDown s.dt, toNat_countDown s.st, rfl, fun _ => rfl⟩

/-- LD DT, Vx is the one instruction that writes DT (R33). -/
theorem exec_dt_eq_or {ins : Instr} {s t : State} (h : exec ins s = .next t) :
    t.dt = s.dt ∨ ∃ x, ins = .ldDt x := by
  cases ins with
  | ldDt x => exact .inr ⟨x, rfl⟩
  | sys | skp | sknp | drw | ldB | ldStore | ldLoad =>
    simp only [exec, execSys, execSkp, execSknp, execDrw, execLdB, execLdStore, execLdLoad] at h
    split at h <;> cases h <;> exact .inl rfl
  | call nnn =>
    rcases Nat.lt_or_eq_of_le (Nat.le_of_lt_succ s.sp.isLt) with hsp | hsp
    · cases (exec_call_of_lt nnn hsp).symm.trans h
      exact .inl rfl
    · cases (exec_call_of_full nnn hsp).symm.trans h
      exact .inl rfl
  | ret =>
    rcases Nat.eq_zero_or_pos s.sp.val with hsp | hsp
    · cases (exec_ret_of_empty hsp).symm.trans h
      exact .inl rfl
    · cases (exec_ret_of_pos hsp).symm.trans h
      exact .inl rfl
  | _ =>
    cases h
    exact .inl rfl

/-- A cycle that does not execute LD DT, Vx leaves the delay timer alone. -/
theorem cycle_dt {s t : State} {rnd : Option Byte} (h : cycle rnd s = .next t)
    (hne : ∀ x, s.nextInstr? ≠ some (.ldDt x)) : t.dt = s.dt := by
  by_cases hrun : s.run = .running
  · rcases cycle_halts_or_executes rnd hrun with ⟨k, op, hc⟩ | ⟨i, hi, hc⟩
    · cases hc.symm.trans h
      rfl
    · refine (exec_dt_eq_or (hc.symm.trans h)).resolve_right ?_
      rintro ⟨x, rfl⟩
      exact hne x hi
  · cases (cycle_of_not_running hrun rnd).1.symm.trans h
    rfl

/-- A `load` leaves the delay timer alone, whether it stores or rejects the image. -/
theorem loadImage_dt {image : List Byte} {s t : State} (h : loadImage image s = .next t) : t.dt = s.dt := by
  obtain ⟨-, ⟨-, rfl⟩ | ⟨-, rfl⟩⟩ := loadImage_next_cases image s t h
  · unfold rejectImage
    split <;> rfl
  · rfl

/-- One transaction of such a schedule takes 1 from the delay timer if it is a tick, and nothing otherwise. -/
theorem transact_dt {tr : Transaction} {s t : State} (h : transact tr s = .next t) (hreset : tr ≠ .reset)
    (hcycle : ∀ rnd, tr = .cycle rnd → ∀ x, s.nextInstr? ≠ some (.ldDt x)) :
    t.dt.toNat = s.dt.toNat - tickCount [tr] := by
  cases tr with
  | reset => exact absurd rfl hreset
  | load image => exact congrArg BitVec.toNat (loadImage_dt h)
  | cycle rnd => exact congrArg BitVec.toNat (cycle_dt h (hcycle rnd rfl))
  | tick =>
    cases h
    exact toNat_countDown s.dt
  | keyEvent k pressed =>
    cases h
    rcases keyEvent_cases k pressed s with ⟨x, -, -, he⟩ | ⟨-, he⟩ <;> rw [he] <;> rfl
  | fbRead | ackRedraw =>
    cases h
    rfl

theorem tickCount_cons (tr : Transaction) (ts : List Transaction) :
    tickCount (tr :: ts) = tickCount ts + tickCount [tr] := by
  cases tr <;> rfl

/-- Settles O47, by induction on the schedule, one `transact_dt` per transaction. -/
theorem delayTimerCountsTheTicksOfASchedule : Obligations.DelayTimerCountsTheTicksOfASchedule := by
  intro ts
  induction ts with
  | nil =>
    intro s t _ h
    cases h
    rfl
  | cons tr ts ih =>
    intro s t hnever h
    obtain ⟨hreset, hcycle, hrest⟩ := hnever
    unfold transactAll at h
    split at h
    · rename_i u hu
      calc t.dt.toNat
        _ = u.dt.toNat - tickCount ts := ih u t (hrest u hu) h
        _ = s.dt.toNat - tickCount [tr] - tickCount ts := by rw [transact_dt hu hreset hcycle]
        _ = s.dt.toNat - tickCount (tr :: ts) := by rw [tickCount_cons tr ts, Nat.sub_sub, Nat.add_comm]
    · cases h
    · cases h

/-! ### Load (R305, R306) -/

theorem loadImage_of_tooLarge {s : State} (hs : s.started = false) {image : List Byte} (hl : image.length > maxImage) :
    loadImage image s = .next (rejectImage s) := by
  simp only [loadImage, hs, Bool.false_eq_true, if_false, if_pos hl]

theorem loadImage_of_fits {s : State} (hs : s.started = false) {image : List Byte} (hl : image.length ≤ maxImage) :
    loadImage image s = .next (s.store progBase image) := by
  simp only [loadImage, hs, Bool.false_eq_true, if_false, if_neg (Nat.not_lt.2 hl)]

theorem loadImage_of_started {s : State} (hs : s.started = true) (image : List Byte) :
    loadImage image s = .refused .loadAfterFirstCycle := by
  simp only [loadImage, hs, if_true]

/-- Settles O55, case by case: an image of at most 3584 bytes ends at 0xFFF, so its store is in range. -/
theorem loadTakesAnImageBeforeTheFirstCycle : Obligations.LoadTakesAnImageBeforeTheFirstCycle := by
  intro s image hwf
  refine ⟨fun hs hrun hl => ?fits, fun hs hrun hl => ?tooLarge, fun hs => loadImage_of_started hs image,
    ⟨_, rfl, rfl⟩⟩
  case fits =>
    have hload := loadImage_of_fits hs hl
    obtain ⟨stored, outside⟩ := State.byte_store_of_inRange (a := progBase) (bs := image) hwf
      (.inr (by simp only [progBase]; omega))
    refine ⟨?_, _, hload, stored, outside, rfl⟩
    simp only [respond, hload, if_neg (Nat.not_lt.2 hl)]
  case tooLarge =>
    have hload := loadImage_of_tooLarge hs hl
    rw [rejectImage_of_running hrun] at hload
    refine ⟨?_, _, hload, rfl⟩
    simp only [respond, hload, if_pos hl, RunState.error?]

/-! ### The schedule is not the block's (R280) -/

/-- A cycle answers so: its fetch and its run state do not depend on the schedule, nor does the instruction it
executes. -/
theorem cycle_answersUnderAnySchedule (rnd : Option Byte) (s : State) : AnswersUnderAnySchedule (cycle rnd) s := by
  by_cases hrun : s.run = .running
  · rcases cycle_running_cases rnd s hrun with ⟨k, hf, hc⟩ | ⟨op, hf, hd, hc⟩ | ⟨op, i, hf, hd, hc⟩
    · exact ⟨_, hc, fun ts => cycle_of_fetch_error (s := s.withPending ts) hrun hf rnd⟩
    · exact ⟨_, hc, fun ts => cycle_of_decode_none (s := s.withPending ts) hrun hf hd rnd⟩
    · obtain ⟨t, ht, hany⟩ := exec_answersUnderAnySchedule i (s.beginCycle rnd)
      have hnext := State.nextInstr?_of_decode hrun hf hd
      exact ⟨t, hc.trans ht, fun ts => (cycle_of_nextInstr? (s := s.withPending ts) hnext rnd).trans (hany ts)⟩
  · exact ⟨_, (cycle_of_not_running hrun rnd).1,
      fun ts => (cycle_of_not_running (s := s.withPending ts) hrun rnd).1⟩

theorem rejectImage_withPending (s : State) (ts : List Transaction) :
    rejectImage (s.withPending ts) = (rejectImage s).withPending ts := by
  simp only [rejectImage, State.withPending]
  split <;> rfl

/-- Every transaction that is not refused answers one next state, whatever is pending. -/
theorem transact_answersUnderAnySchedule {tr : Transaction} {s t : State} (h : transact tr s = .next t) :
    AnswersUnderAnySchedule (transact tr) s := by
  cases tr with
  | cycle rnd => exact cycle_answersUnderAnySchedule (some rnd) s
  | load image =>
    obtain ⟨hs, ⟨hl, -⟩ | ⟨hl, -⟩⟩ := loadImage_next_cases image s t h
    · refine ⟨_, loadImage_of_tooLarge hs hl, fun ts => ?_⟩
      rw [← rejectImage_withPending]
      exact loadImage_of_tooLarge (s := s.withPending ts) hs hl
    · exact ⟨_, loadImage_of_fits hs hl, fun ts => loadImage_of_fits (s := s.withPending ts) hs hl⟩
  | keyEvent k pressed =>
    rcases keyEvent_cases k pressed s with ⟨x, hwait, rfl, -⟩ | ⟨hother, -⟩
    · exact ⟨_, transact_keyEvent_of_release hwait k,
        fun ts => transact_keyEvent_of_release (s := s.withPending ts) hwait k⟩
    · exact ⟨_, transact_keyEvent_of_not_release hother k,
        fun ts => transact_keyEvent_of_not_release (s := s.withPending ts) hother k⟩
  | reset | tick | fbRead | ackRedraw => exact ⟨_, rfl, fun _ => rfl⟩

/-- Settles O60: under the schedule the state has, the one answer is the state's own, so it passes that schedule on. -/
theorem transactionsIgnoreTheSchedule : Obligations.TransactionsIgnoreTheSchedule := by
  intro tr s t ts h
  obtain ⟨u, hu, hany⟩ := transact_answersUnderAnySchedule h
  cases hu.symm.trans h
  have hown : transact tr s = .next (t.withPending s.pending) := hany s.pending
  have hpending := congrArg State.pending (Host.Outcome.next.inj (h.symm.trans hown))
  exact ⟨hany ts, hpending⟩

/-! ### Reset (R300, R302) -/

/-- The reset state of every configuration has the reset values: its memory is unwritten, so it reads as FONT_ROM and
0 (R43). -/
theorem hasResetValues_resetWith (c : Config) : HasResetValues (State.resetWith c) := by
  refine ⟨fun r => ?_, rfl, rfl, rfl, fun j => ?_, rfl, rfl, rfl, rfl, Framebuffer.pixel_clear, fun k => ?_,
    fun a ha => dif_pos ha, fun a ha => dif_neg (Nat.not_lt.2 ha)⟩
  all_goals exact Vector.getElem_replicate _

/-- Settles O54: the reset values say nothing of the schedule and the draws, which are all that `reset` keeps beside the
parameters. -/
theorem resetSetsEveryField : Obligations.ResetSetsEveryField :=
  ⟨fun s => ⟨resetBlock s, rfl, rfl, hasResetValues_resetWith s.cfg⟩, hasResetValues_resetWith defaultConfig⟩

end Sys2Proof.Machine
